-- ==== Sys2Proof/Syntax.lean ====
section
/-! DEFINITION. The 21 commands, one constructor per row of spec/opcode_table.json (spec/30_encoding.md R93). -/

namespace Sys2Proof

/-- The padding scheme of the PAD field (R94). PAD = 3 is reserved and names no scheme. -/
inductive PadScheme where
  | none   -- 0: the caller guarantees block alignment
  | pkcs7  -- 1: PKCS#7
  | m2     -- 2: ISO/IEC 9797-1 Method 2, "0x80" padding
  deriving DecidableEq, Repr

/-- A command. Every operand register is fixed; only the padding scheme of a mode command and the round index of
ADDROUNDKEY come from the command word (R90, R94, R95). -/
inductive Instr where
  | nop
  | keyexp
  | encblk
  | decblk
  | subbytes
  | invsubbytes
  | shiftrows
  | invshiftrows
  | mixcolumns
  | invmixcolumns
  | addroundkey (rnd : Nat)
  | pkcs7pad
  | pkcs7unpad
  | m2pad
  | m2unpad
  | ecbenc (pad : PadScheme)
  | ecbdec (pad : PadScheme)
  | cbcenc (pad : PadScheme)
  | cbcdec (pad : PadScheme)
  | cmackeys
  | cmac
  deriving DecidableEq, Repr

end Sys2Proof
end

