-- ==== Sys2Proof/WellFormed.lean ====
section
/-! DEFINITION. Which commands have a command word (spec/30_encoding.md R92, R95): the round index of ADDROUNDKEY fits the
4-bit RND field. A padding scheme is well-formed by its type. -/

namespace Sys2Proof

/-- The command can be encoded (R92): RND is 0 to 15. -/
def Instr.wellFormed (i : Instr) : Bool :=
  match i with
  | .addroundkey rnd => decide (rnd < 16)
  | .nop | .keyexp | .encblk | .decblk | .subbytes | .invsubbytes | .shiftrows | .invshiftrows
  | .mixcolumns | .invmixcolumns | .pkcs7pad | .pkcs7unpad | .m2pad | .m2unpad
  | .ecbenc _ | .ecbdec _ | .cbcenc _ | .cbcdec _ | .cmackeys | .cmac => true

end Sys2Proof
end

