-- ==== Sys2Proof/Decode.lean ====
section
/-! DEFINITION. The command word: fields (spec/30_encoding.md R90, R91), strict decoding that rejects by name (R92, R100),
and the encoder from the same map (R93, R94). -/

namespace Sys2Proof

/-- Why a word is no legal command (R92, R100). -/
inductive DecodeError where
  | reservedBits   -- bits [15:14] are not 0
  | unknownOpcode  -- OP is not in the map of R93
  | unusedPad      -- PAD is not 0 on a command without a PAD operand
  | unusedRnd      -- RND is not 0 on a command other than ADDROUNDKEY
  | reservedPad    -- PAD = 3 on a mode command
  deriving DecidableEq, Repr

/-- The OP field, bits [7:0] (R91). -/
def fieldOp (w : BitVec 16) : Nat := w.toNat % 256

/-- The PAD field, bits [9:8] (R91). -/
def fieldPad (w : BitVec 16) : Nat := w.toNat / 256 % 4

/-- The RND field, bits [13:10] (R91). -/
def fieldRnd (w : BitVec 16) : Nat := w.toNat / 1024 % 16

/-- The RSV field, bits [15:14] (R91). -/
def fieldRsv (w : BitVec 16) : Nat := w.toNat / 16384 % 4

/-- The scheme a PAD code names (R94). -/
def padOfCode (p : Nat) : Option PadScheme :=
  if p = 0 then some .none
  else if p = 1 then some .pkcs7
  else if p = 2 then some .m2
  else Option.none

/-- The PAD code of a scheme (R94). -/
def padCode (p : PadScheme) : Nat :=
  match p with
  | .none => 0
  | .pkcs7 => 1
  | .m2 => 2

/-- A command without operand fields: PAD and RND must be 0 (R92). -/
def decodePlain (i : Instr) (pad rnd : Nat) : Except DecodeError Instr :=
  if pad ≠ 0 then .error .unusedPad
  else if rnd ≠ 0 then .error .unusedRnd
  else .ok i

/-- ADDROUNDKEY: PAD must be 0, RND is the round index (R92, R95). -/
def decodeRound (pad rnd : Nat) : Except DecodeError Instr :=
  if pad ≠ 0 then .error .unusedPad
  else .ok (.addroundkey rnd)

/-- A mode command: PAD is 0, 1 or 2, RND must be 0 (R92, R94). -/
def decodeMode (mk : PadScheme → Instr) (pad rnd : Nat) : Except DecodeError Instr :=
  match padOfCode pad with
  | Option.none => .error .reservedPad
  | some p => if rnd ≠ 0 then .error .unusedRnd else .ok (mk p)

/-- The opcode map of R93, applied to the fields. -/
def decodeFields (op pad rnd : Nat) : Except DecodeError Instr :=
  if op = 0x00 then decodePlain .nop pad rnd
  else if op = 0x01 then decodePlain .keyexp pad rnd
  else if op = 0x02 then decodePlain .encblk pad rnd
  else if op = 0x03 then decodePlain .decblk pad rnd
  else if op = 0x10 then decodePlain .subbytes pad rnd
  else if op = 0x11 then decodePlain .invsubbytes pad rnd
  else if op = 0x12 then decodePlain .shiftrows pad rnd
  else if op = 0x13 then decodePlain .invshiftrows pad rnd
  else if op = 0x14 then decodePlain .mixcolumns pad rnd
  else if op = 0x15 then decodePlain .invmixcolumns pad rnd
  else if op = 0x16 then decodeRound pad rnd
  else if op = 0x20 then decodePlain .pkcs7pad pad rnd
  else if op = 0x21 then decodePlain .pkcs7unpad pad rnd
  else if op = 0x22 then decodePlain .m2pad pad rnd
  else if op = 0x23 then decodePlain .m2unpad pad rnd
  else if op = 0x30 then decodeMode .ecbenc pad rnd
  else if op = 0x31 then decodeMode .ecbdec pad rnd
  else if op = 0x32 then decodeMode .cbcenc pad rnd
  else if op = 0x33 then decodeMode .cbcdec pad rnd
  else if op = 0x40 then decodePlain .cmackeys pad rnd
  else if op = 0x41 then decodePlain .cmac pad rnd
  else .error .unknownOpcode

/-- Strict decoding (R92): total on the 65536 words, each one legal command or rejected by name. -/
def decode (w : BitVec 16) : Except DecodeError Instr :=
  if fieldRsv w ≠ 0 then .error .reservedBits
  else decodeFields (fieldOp w) (fieldPad w) (fieldRnd w)

/-- The instruction the decoder reads from the command word w of a table row of nbits bits, none where it refuses.
There is one command length, 16 bits (R90); a register keeps the low 16 bits of what is written to CMD
(spec/20_memory.md R66). -/
def decodeTableWord (nbits w : Nat) : Option Instr :=
  match decode (BitVec.ofNat 16 (w % 2 ^ nbits)) with
  | .ok i => some i
  | .error _ => Option.none

/-- The opcode of a command (R93). -/
def opcodeOf (i : Instr) : Nat :=
  match i with
  | .nop => 0x00
  | .keyexp => 0x01
  | .encblk => 0x02
  | .decblk => 0x03
  | .subbytes => 0x10
  | .invsubbytes => 0x11
  | .shiftrows => 0x12
  | .invshiftrows => 0x13
  | .mixcolumns => 0x14
  | .invmixcolumns => 0x15
  | .addroundkey _ => 0x16
  | .pkcs7pad => 0x20
  | .pkcs7unpad => 0x21
  | .m2pad => 0x22
  | .m2unpad => 0x23
  | .ecbenc _ => 0x30
  | .ecbdec _ => 0x31
  | .cbcenc _ => 0x32
  | .cbcdec _ => 0x33
  | .cmackeys => 0x40
  | .cmac => 0x41

/-- The PAD field of a command's word (R92, R94). -/
def padFieldOf (i : Instr) : Nat :=
  match i with
  | .ecbenc p | .ecbdec p | .cbcenc p | .cbcdec p => padCode p
  | .nop | .keyexp | .encblk | .decblk | .subbytes | .invsubbytes | .shiftrows | .invshiftrows
  | .mixcolumns | .invmixcolumns | .addroundkey _ | .pkcs7pad | .pkcs7unpad | .m2pad | .m2unpad
  | .cmackeys | .cmac => 0

/-- The RND field of a command's word (R92, R95). -/
def rndFieldOf (i : Instr) : Nat :=
  match i with
  | .addroundkey r => r
  | .nop | .keyexp | .encblk | .decblk | .subbytes | .invsubbytes | .shiftrows | .invshiftrows
  | .mixcolumns | .invmixcolumns | .pkcs7pad | .pkcs7unpad | .m2pad | .m2unpad
  | .ecbenc _ | .ecbdec _ | .cbcenc _ | .cbcdec _ | .cmackeys | .cmac => 0

/-- The command word of a well-formed command: OP + 256 PAD + 1024 RND, the reserved bits 0 (R90, R104). -/
def encode (i : Instr) : BitVec 16 :=
  BitVec.ofNat 16 (opcodeOf i + 256 * padFieldOf i + 1024 * rndFieldOf i)

end Sys2Proof
end

