-- ==== Sys2Proof/Word.lean ====
section
/-! DEFINITION. The byte, the 4-byte word of the key schedule and the 16-byte block
(spec/00_scope.md R8, R11, R12). No rule treats a word or a block as a number, so both are sequences of bytes. -/

namespace Sys2Proof

/-- A byte: 8 bits, bit 7 the most significant (R8). -/
abbrev Byte := BitVec 8

/-- A block: 16 bytes, index 0 first; row r, column c of the 4x4 matrix is byte r + 4c (R11). -/
abbrev Block := Vector Byte 16

/-- A word of the key schedule: a sequence of 4 bytes, not a number (R12). -/
structure Word where
  b0 : Byte
  b1 : Byte
  b2 : Byte
  b3 : Byte
  deriving DecidableEq, Repr

/-- Byte-wise exclusive-or of two words (R9, R141). -/
def Word.xor (t u : Word) : Word :=
  ⟨t.b0 ^^^ u.b0, t.b1 ^^^ u.b1, t.b2 ^^^ u.b2, t.b3 ^^^ u.b3⟩

/-- The four bytes of a word in index order. -/
def Word.toBytes (t : Word) : List Byte := [t.b0, t.b1, t.b2, t.b3]

end Sys2Proof
end

