-- ==== Sys2Proof/Config.lean ====
section
/-! DEFINITION. The implementation parameters of spec/00_scope.md R7 that the spec leaves open (92_eei_decisions.md D5).
They are an argument of the model: State carries one value of `Params`, no step changes it, and every statement holds for
every value. BUSMAP's default table is in Machine/HostPort.lean. The spec leaves no value free, so no constant here is opaque. -/

namespace Sys2Proof.Config

/-- MAXLEN, the capacity of DBUF in bytes, a natural number or unbounded (`none`), and LENW, the width of DLEN in bits (R7). -/
structure Params where
  maxLen : Option Nat
  lenW : Nat
  deriving DecidableEq, Repr

/-- The constraints of R7: MAXLEN is at least 16 and at most 2^LENW - 1. -/
def Params.legal (p : Params) : Bool :=
  match p.maxLen with
  | none => true
  | some m => decide (16 ≤ m) && decide (m ≤ 2 ^ p.lenW - 1)

/-- The parameters of State.reset: LENW is the default of R7; MAXLEN = 4096 is a DESIGN CHOICE (log entry 1). -/
def defaultParams : Params := { maxLen := some 4096, lenW := 32 }

end Sys2Proof.Config
end

