-- ==== Sys2Proof/Machine/State.lean ====
section
/-! DEFINITION. The state of SAES-CORE: the fifteen registers of spec/10_state.md R22, and three fields of the model's own
(`params`, `pending`, `readData`; log entries 1, 2, 3). Reset as spec/70_reset_and_hazards.md R300 gives it. -/

namespace Sys2Proof.Machine

/-- The register names of R22, each an address space of cells (spec/20_memory.md R60). -/
inductive Reg where
  | cmd
  | status
  | key
  | keylen
  | rk
  | nr
  | blk
  | iv
  | ivlen
  | padbs
  | dbuf
  | dlen
  | k1
  | k2
  | tag
  deriving DecidableEq, Repr

/-- The host's operations (R62): HostRead, HostWrite (a write of CMD is HostCommand), Reset; Reset arriving while the
command w runs (spec/70_reset_and_hazards.md R301); and accesses by byte offset through the default BUSMAP (R72). -/
inductive HostOp where
  | read (r : Reg) (i : Nat)
  | write (r : Reg) (i : Nat) (v : Nat)
  | reset
  | resetDuring (w : Nat)
  | busRead (offset size : Nat)
  | busWrite (offset size v : Nat)
  deriving DecidableEq, Repr

/-- The error kinds (spec/30_encoding.md R98, spec/60_exceptions.md R261). An error is a result, never a stop. -/
inductive ErrKind where
  | invalidKeyLength
  | invalidIVLength
  | invalidInputLength
  | invalidBlockSize
  | invalidPadding
  | illegalCommand
  | noSchedule
  | capacityExceeded
  deriving DecidableEq, Repr

/-- What stops a step with a fault. No command raises one: every command is defined from every state (R63). -/
inductive Fault where
  /-- Raised by a HostRead or HostWrite whose index names no cell of the register (R62: such an access does not exist).
  Safe: the model stops where the spec gives no effect (log entry 6). -/
  | noSuchCell (r : Reg) (i : Nat)
  deriving DecidableEq, Repr

/-- What a step refuses to give a meaning. -/
inductive Refusal where
  /-- Raised by exec's arm of an instruction without a meaning; no arm uses it. Safe. -/
  | notModelled (mnemonic : String)
  /-- Raised by a bus access whose offset is not in the default BUSMAP table or whose width the table does not define
  (R72: refused by the model; 93 U9). Safe (log entry 7). -/
  | strayBusAccess (offset size : Nat)
  deriving DecidableEq, Repr

/-- The outcome of a step of this machine. -/
abbrev Result (σ : Type) := Host.Outcome σ Fault Refusal

/-- A sparse byte memory: (address, byte) pairs in the canonical form `Memory.wf`. -/
abbrev Memory := List Host.Cell

/-- What an unlisted cell of DBUF reads as: 0x00, DBUF's reset value (R50, R300). -/
def Memory.unlisted : Byte := 0x00

/-- The canonical form: addresses strictly rising, no entry equal to what an unlisted cell reads as. -/
abbrev Memory.wf (m : Memory) : Prop :=
  m.Pairwise (fun c d => c.1 < d.1) ∧ ∀ c ∈ m, c.2 ≠ Memory.unlisted

/-- The registers of R22, each under its own name, and the model's own fields. -/
structure State where
  cmd : BitVec 16
  status : BitVec 16
  key : Vector Byte 32
  keylen : BitVec 8
  rk : Vector Byte 240
  nr : BitVec 8
  blk : Block
  iv : Vector Byte 16
  ivlen : BitVec 8
  padbs : BitVec 8
  dbuf : Memory
  dlen : Nat
  k1 : Block
  k2 : Block
  tag : Block
  params : Config.Params
  pending : List HostOp
  readData : Option Nat
  deriving DecidableEq, Repr

/-- The state right after reset of an instance with parameters p (R50, R300): every scalar 0, every byte 0x00. -/
def State.resetWith (p : Config.Params) : State where
  cmd := 0
  status := 0
  key := Vector.replicate 32 0
  keylen := 0
  rk := Vector.replicate 240 0
  nr := 0
  blk := Vector.replicate 16 0
  iv := Vector.replicate 16 0
  ivlen := 0
  padbs := 0
  dbuf := []
  dlen := 0
  k1 := Vector.replicate 16 0
  k2 := Vector.replicate 16 0
  tag := Vector.replicate 16 0
  params := p
  pending := []
  readData := none

/-- The machine right after reset, with the default parameters (log entry 1) and an idle host (log entries 2, 3). -/
def State.reset : State := State.resetWith Config.defaultParams

end Sys2Proof.Machine
end

