-- ==== Sys2Proof/Machine/Flags.lean ====
section
/-! DEFINITION. STATUS, the only status register (spec/10_state.md R40, R41): ERR in bits [3:0], SCHED_VALID in bit 4, bits
[15:5] reserved. The core has no arithmetic flags. -/

namespace Sys2Proof.Machine

/-- The code of an error kind (spec/30_encoding.md R98). -/
def errCode (e : ErrKind) : BitVec 4 :=
  match e with
  | .invalidKeyLength => 1
  | .invalidIVLength => 2
  | .invalidInputLength => 3
  | .invalidBlockSize => 4
  | .invalidPadding => 5
  | .illegalCommand => 6
  | .noSchedule => 7
  | .capacityExceeded => 8

/-- The ERR field of a STATUS word (R40). -/
def statusErr (w : BitVec 16) : BitVec 4 := w.extractLsb' 0 4

/-- The SCHED_VALID flag of a STATUS word (R40). -/
def statusSchedValid (w : BitVec 16) : Bool := w.getLsbD 4

/-- The reserved bits [15:5] of a STATUS word (R40). -/
def statusReserved (w : BitVec 16) : BitVec 11 := w.extractLsb' 5 11

/-- A STATUS word with ERR replaced and every other bit kept. -/
def statusWithErr (w : BitVec 16) (e : BitVec 4) : BitVec 16 := w.extractLsb' 4 12 ++ e

/-- A STATUS word with SCHED_VALID set and every other bit kept. -/
def statusWithSchedValid (w : BitVec 16) : BitVec 16 := w ||| 0x0010

/-- STATUS.ERR. -/
def State.err (s : State) : BitVec 4 := statusErr s.status

/-- STATUS.SCHED_VALID. -/
def State.schedValid (s : State) : Bool := statusSchedValid s.status

/-- STATUS.ERR <- e. -/
def State.setErr (s : State) (e : BitVec 4) : State := { s with status := statusWithErr s.status e }

/-- STATUS.SCHED_VALID <- 1. -/
def State.setSchedValid (s : State) : State := { s with status := statusWithSchedValid s.status }

end Sys2Proof.Machine
end

