-- ==== Sys2Proof/Machine/Ops.lean ====
section
/-! DEFINITION. The shared operations over registers and memory, and the delivery of a result or an error, which is what
stands in the place of trap entry (spec/60_exceptions.md R262). -/

namespace Sys2Proof.Machine

/-! Byte registers. -/

/-- The n-byte value whose byte i is f i. -/
def tabulate (n : Nat) (f : Nat → Byte) : Vector Byte n := ⟨((List.range n).map f).toArray, by simp⟩

/-- The n-byte value that starts with the bytes of l and is zero-filled above them. -/
def ofBytes (n : Nat) (l : List Byte) : Vector Byte n := tabulate n (fun i => l.getD i 0)

/-- Byte i of a byte register, REG[i] (spec/00_scope.md R10). -/
def byteAt {n : Nat} (v : Vector Byte n) (i : Nat) : Byte := v.toList.getD i 0

/-- REG[i] <- b (R10). -/
def setByteAt {n : Nat} (v : Vector Byte n) (i : Nat) (b : Byte) : Vector Byte n :=
  ⟨(v.toList.set i b).toArray, by simp⟩

/-- A function applied to each byte lane. -/
def mapBytes {n : Nat} (f : Byte → Byte) (v : Vector Byte n) : Vector Byte n := ⟨(v.toList.map f).toArray, by simp⟩

/-- The exclusive-or of two equal-length byte values, byte by byte (spec/00_scope.md R9). -/
def xorBytes {n : Nat} (v w : Vector Byte n) : Vector Byte n :=
  ⟨(List.zipWith (fun a b => a ^^^ b) v.toList w.toList).toArray, by simp⟩

/-- The all-zero block. -/
def zeroBlock : Block := Vector.replicate 16 0

/-- Block j of a byte sequence, p[16j..16j+16) (spec/44_modes.md R210). -/
def blockOf (p : List Byte) (j : Nat) : Block := tabulate 16 (fun k => p.getD (16 * j + k) 0)

/-- The whole blocks of a byte sequence, in ascending order (R210). -/
def blocksOf (p : List Byte) : List Block := (List.range (p.length / 16)).map (blockOf p)

/-- Blocks joined by concatenation in order (R210). -/
def joinBlocks (bs : List Block) : List Byte := bs.flatMap (fun b => b.toList)

/-! The data buffer. -/

/-- DBUF[a]. -/
def Memory.read (m : Memory) (a : Nat) : Byte :=
  match m with
  | [] => Memory.unlisted
  | c :: rest => if c.1 = a then c.2 else Memory.read rest a

/-- DBUF[a] <- b, keeping the canonical form. -/
def Memory.write (m : Memory) (a : Nat) (b : Byte) : Memory :=
  match m with
  | [] => if b = Memory.unlisted then [] else [(a, b)]
  | c :: rest =>
    if c.1 < a then c :: Memory.write rest a b
    else if c.1 = a then (if b = Memory.unlisted then rest else (a, b) :: rest)
    else (if b = Memory.unlisted then c :: rest else (a, b) :: c :: rest)

/-- MemRead(a, n): DBUF[a..a+n) in index order (spec/00_scope.md R10). -/
def Memory.readBytes (m : Memory) (a n : Nat) : List Byte := (List.range n).map (fun k => m.read (a + k))

/-- MemWrite(a, n, l) with n the length of l: DBUF[a+k] <- l[k] (R10). -/
def Memory.writeBytes (m : Memory) (a : Nat) (l : List Byte) : Memory :=
  match l with
  | [] => m
  | b :: rest => Memory.writeBytes (m.write a b) (a + 1) rest

/-- n bytes fit DBUF: n <= MAXLEN, always so when MAXLEN is unbounded (spec/60_exceptions.md R268). -/
def fitsBuffer (p : Config.Params) (n : Nat) : Bool :=
  match p.maxLen with
  | none => true
  | some m => decide (n ≤ m)

/-- What DLEN holds after v is written to it: the low LENW bits (spec/20_memory.md R66), or v itself where MAXLEN is
unbounded and DLEN a natural number (spec/00_scope.md R7). -/
def truncLength (p : Config.Params) (v : Nat) : Nat :=
  match p.maxLen with
  | none => v
  | some _ => v % 2 ^ p.lenW

/-! The end of a command. -/

/-- The delivery of an error (R262): ERR is the code, no other register changes, the command is complete. There is no
handler and nothing to return from or restore (R263): the next command runs as after a success. -/
def raise (e : ErrKind) (s : State) : Result State := .next (s.setErr (errCode e))

/-- The end of a successful command: ERR is 0 (R40). -/
def complete (s : State) : Result State := .next (s.setErr 0)

/-- How every command ends: its writes are committed only on success; on an error the state before it stands, with
ERR set (R262, spec/44_modes.md R215). -/
def deliver (s : State) (r : Except ErrKind State) : Result State :=
  match r with
  | .ok t => complete t
  | .error e => raise e s

end Sys2Proof.Machine
end

