-- ==== Sys2Proof/Machine/Operands.lean ====
section
/-! DEFINITION. The operands a command takes from the registers, each with the check that guards it. The checks of one
command stand in the order of spec/60_exceptions.md R270. -/

namespace Sys2Proof.Machine

/-- Go on if p holds, else the error e. -/
def require (p : Bool) (e : ErrKind) : Except ErrKind Unit := if p then .ok () else .error e

/-- KEYLEN is 16, 24 or 32 (spec/41_key_schedule.md R143). -/
def keyLengthOk (s : State) : Bool := s.keylen = 16 || s.keylen = 24 || s.keylen = 32

/-- KEY[0..KEYLEN) (spec/10_state.md R24). -/
def keyBytes (s : State) : List Byte := s.key.toList.take s.keylen.toNat

/-- The key operand: InvalidKeyLength unless KEYLEN is legal (R143). -/
def keyOperand (s : State) : Except ErrKind (List Byte) :=
  if keyLengthOk s then .ok (keyBytes s) else .error .invalidKeyLength

/-- The IV operand: InvalidIVLength unless IVLEN is 16 (spec/44_modes.md R214). -/
def ivOperand (s : State) : Except ErrKind Block :=
  if s.ivlen = 16 then .ok s.iv else .error .invalidIVLength

/-- The round keys in RK as a byte sequence. -/
def scheduleBytes (s : State) : List Byte := s.rk.toList

/-- The schedule operand, RK and NR: NoSchedule unless SCHED_VALID (spec/42_block_transform.md R176). -/
def scheduleOperand (s : State) : Except ErrKind (List Byte × Nat) :=
  if s.schedValid then .ok (scheduleBytes s, s.nr.toNat) else .error .noSchedule

/-- The block size operand of the standalone pad commands: InvalidBlockSize if PADBS is 0 (spec/43_padding.md R193). -/
def blockSizeOperand (s : State) : Except ErrKind Nat :=
  if s.padbs = 0 then .error .invalidBlockSize else .ok s.padbs.toNat

/-- How many bytes padding to a multiple of bs appends to a message of length len (spec/43_padding.md R190, R192). -/
def padCount (len bs : Nat) : Nat := bs - len % bs

/-- DLEN is a multiple of 16, else InvalidInputLength (spec/60_exceptions.md R265). -/
def requireAligned (s : State) : Except ErrKind Unit := require (s.dlen % 16 = 0) .invalidInputLength

/-- n bytes fit DBUF, else CapacityExceeded (spec/60_exceptions.md R268). -/
def requireFits (s : State) (n : Nat) : Except ErrKind Unit := require (fitsBuffer s.params n) .capacityExceeded

/-- The message, DBUF[0..DLEN) (spec/10_state.md R29). -/
def message (s : State) : List Byte := s.dbuf.readBytes 0 s.dlen

end Sys2Proof.Machine
end

