-- ==== Sys2Proof/Machine/KeySchedule.lean ====
section
/-! DEFINITION. The key schedule and KEYEXP (spec/41_key_schedule.md). -/

namespace Sys2Proof.Machine

/-- RotWord: one byte toward index 0 (R141). -/
def rotWord (t : Word) : Word := ⟨t.b1, t.b2, t.b3, t.b0⟩

/-- SubWord: the S-box on each of the four bytes (R141). -/
def subWord (t : Word) : Word := ⟨sbox t.b0, sbox t.b1, sbox t.b2, sbox t.b3⟩

/-- The round constant lands on byte 0 only (R144). -/
def addRcon (t : Word) (c : Byte) : Word := { t with b0 := t.b0 ^^^ c }

/-- Word i of a byte sequence (spec/00_scope.md R12). -/
def wordOf (p : List Byte) (i : Nat) : Word :=
  ⟨p.getD (4 * i) 0, p.getD (4 * i + 1) 0, p.getD (4 * i + 2) 0, p.getD (4 * i + 3) 0⟩

/-- The zero word. -/
def zeroWord : Word := ⟨0, 0, 0, 0⟩

/-- What word i - 1 contributes to word i (R142): the two branches of R145. -/
def scheduleCore (nk i : Nat) (t : Word) : Word :=
  if i % nk = 0 then addRcon (subWord (rotWord t)) (rcon (i / nk))
  else if nk = 8 ∧ i % nk = 4 then subWord t
  else t

/-- Word i from the words before it (R142): W(i) = W(i-Nk) ^ t. -/
def nextWord (nk : Nat) (ws : List Word) (i : Nat) : Word :=
  (ws.getD (i - nk) zeroWord).xor (scheduleCore nk i (ws.getD (i - 1) zeroWord))

/-- The words W(0), W(1), ... after count steps of the loop of R142. -/
def expandWords (nk : Nat) (key : List Byte) (count : Nat) : List Word :=
  match count with
  | 0 => (List.range nk).map (wordOf key)
  | k + 1 =>
    let ws := expandWords nk key k
    ws ++ [nextWord nk ws (nk + k)]

/-- Nk, the key length in words (R140). -/
def keyWordCount (key : List Byte) : Nat := key.length / 4

/-- Nr = Nk + 6 (R140). -/
def roundCount (key : List Byte) : Nat := keyWordCount key + 6

/-- The schedule's bytes, 16·(Nr+1) of them (R142). -/
def scheduleOf (key : List Byte) : List Byte :=
  let nk := keyWordCount key
  (expandWords nk key (4 * (roundCount key + 1) - nk)).flatMap Word.toBytes

/-- KeyExpansion(key) = (w, Nr) (R142). -/
def keyExpansion (key : List Byte) : List Byte × Nat := (scheduleOf key, roundCount key)

/-- RK after KEYEXP: the schedule, zero-filled to 240 bytes (R147). -/
def rkOf (w : List Byte) : Vector Byte 240 := ofBytes 240 w

/-- What KEYEXP computes (R148). -/
def keyexpBody (s : State) : Except ErrKind State := do
  let key ← keyOperand s
  let (w, nr) := keyExpansion key
  return State.setSchedValid { s with rk := rkOf w, nr := BitVec.ofNat 8 nr }

/-- KEYEXP (R148). -/
def execKeyexp (s : State) : Result State := deliver s (keyexpBody s)

end Sys2Proof.Machine
end

