-- ==== Sys2Proof/Machine/BlockTransform.lean ====
section
/-! DEFINITION. The round steps, the cipher and the inverse cipher, and the nine commands on BLK
(spec/42_block_transform.md). Every step computes its output from the old block as a whole (spec/70_reset_and_hazards.md
R311). -/

namespace Sys2Proof.Machine

/-- SubBytes (R156): SBOX on each byte lane. -/
def subBytes (s : Block) : Block := mapBytes sbox s

/-- InvSubBytes (R157): INVSBOX on each byte lane. -/
def invSubBytes (s : Block) : Block := mapBytes invSbox s

/-- ShiftRows (R158): row r to the left by r; index i = r + 4c. -/
def shiftRows (s : Block) : Block :=
  tabulate 16 (fun i => byteAt s (i % 4 + 4 * ((i / 4 + i % 4) % 4)))

/-- InvShiftRows (R159): row r to the right by r. -/
def invShiftRows (s : Block) : Block :=
  tabulate 16 (fun i => byteAt s (i % 4 + 4 * ((i / 4 + 4 - i % 4) % 4)))

/-- One column of MixColumns (R160). -/
def mixColumn (t : Word) : Word :=
  ⟨mul2 t.b0 ^^^ mul3 t.b1 ^^^ t.b2 ^^^ t.b3,
   t.b0 ^^^ mul2 t.b1 ^^^ mul3 t.b2 ^^^ t.b3,
   t.b0 ^^^ t.b1 ^^^ mul2 t.b2 ^^^ mul3 t.b3,
   mul3 t.b0 ^^^ t.b1 ^^^ t.b2 ^^^ mul2 t.b3⟩

/-- One column of InvMixColumns (R161). -/
def invMixColumn (t : Word) : Word :=
  ⟨mul14 t.b0 ^^^ mul11 t.b1 ^^^ mul13 t.b2 ^^^ mul9 t.b3,
   mul9 t.b0 ^^^ mul14 t.b1 ^^^ mul11 t.b2 ^^^ mul13 t.b3,
   mul13 t.b0 ^^^ mul9 t.b1 ^^^ mul14 t.b2 ^^^ mul11 t.b3,
   mul11 t.b0 ^^^ mul13 t.b1 ^^^ mul9 t.b2 ^^^ mul14 t.b3⟩

/-- A map of columns applied to each of the four columns of a block (spec/00_scope.md R11). -/
def mapColumns (f : Word → Word) (s : Block) : Block :=
  ofBytes 16 ((List.range 4).flatMap (fun c => (f (wordOf s.toList c)).toBytes))

/-- MixColumns (R160). -/
def mixColumns (s : Block) : Block := mapColumns mixColumn s

/-- InvMixColumns (R161). -/
def invMixColumns (s : Block) : Block := mapColumns invMixColumn s

/-- Round key r of a schedule, w[16r..16r+16) (R162). -/
def roundKey (w : List Byte) (r : Nat) : Block := ofBytes 16 (w.drop (16 * r))

/-- AddRoundKey (R162): s'[i] = s[i] ^ w[16r + i]. -/
def addRoundKey (s : Block) (w : List Byte) (r : Nat) : Block :=
  xorBytes s (roundKey w r)

/-- A middle round of the cipher, r = 1 .. Nr-1 (R171). -/
def encRound (w : List Byte) (s : Block) (r : Nat) : Block :=
  addRoundKey (mixColumns (shiftRows (subBytes s))) w r

/-- A middle round of the inverse cipher, r = Nr-1 down to 1 (R173). -/
def decRound (w : List Byte) (s : Block) (r : Nat) : Block :=
  invSubBytes (invShiftRows (invMixColumns (addRoundKey s w r)))

/-- EncryptBlock(s, w, Nr) (R171). -/
def encryptBlock (s : Block) (w : List Byte) (nr : Nat) : Block :=
  let s := addRoundKey s w 0
  let s := (List.range' 1 (nr - 1)).foldl (encRound w) s
  addRoundKey (shiftRows (subBytes s)) w nr

/-- DecryptBlock(s, w, Nr) (R173). -/
def decryptBlock (s : Block) (w : List Byte) (nr : Nat) : Block :=
  let s := invSubBytes (invShiftRows (addRoundKey s w nr))
  let s := (List.range' 1 (nr - 1)).reverse.foldl (decRound w) s
  addRoundKey s w 0

/-- A step command without a key: BLK <- f(BLK), ERR <- 0 (R163 to R168). -/
def stepBlk (f : Block → Block) (s : State) : Result State := complete { s with blk := f s.blk }

/-- SUBBYTES (R163). -/
def execSubbytes (s : State) : Result State := stepBlk subBytes s

/-- INVSUBBYTES (R164). -/
def execInvsubbytes (s : State) : Result State := stepBlk invSubBytes s

/-- SHIFTROWS (R165). -/
def execShiftrows (s : State) : Result State := stepBlk shiftRows s

/-- INVSHIFTROWS (R166). -/
def execInvshiftrows (s : State) : Result State := stepBlk invShiftRows s

/-- MIXCOLUMNS (R167). -/
def execMixcolumns (s : State) : Result State := stepBlk mixColumns s

/-- INVMIXCOLUMNS (R168). -/
def execInvmixcolumns (s : State) : Result State := stepBlk invMixColumns s

/-- What ADDROUNDKEY computes (R170): NoSchedule before the round check. -/
def addroundkeyBody (r : Nat) (s : State) : Except ErrKind State := do
  let (w, nr) ← scheduleOperand s
  require (r ≤ nr) .illegalCommand
  return { s with blk := addRoundKey s.blk w r }

/-- ADDROUNDKEY rnd=r (R170). -/
def execAddroundkey (r : Nat) (s : State) : Result State := deliver s (addroundkeyBody r s)

/-- A block command under the schedule in RK (R172, R174). -/
def blockBody (f : Block → List Byte → Nat → Block) (s : State) : Except ErrKind State := do
  let (w, nr) ← scheduleOperand s
  return { s with blk := f s.blk (w.take (16 * (nr + 1))) nr }

/-- ENCBLK (R172). -/
def execEncblk (s : State) : Result State := deliver s (blockBody encryptBlock s)

/-- DECBLK (R174). -/
def execDecblk (s : State) : Result State := deliver s (blockBody decryptBlock s)

end Sys2Proof.Machine
end

