-- ==== Sys2Proof/Machine/Cmac.lean ====
section
/-! DEFINITION. CMAC: doubling, subkeys, the tag, and the two commands (spec/45_cmac.md). -/

namespace Sys2Proof.Machine

/-- Dbl (R237): the 16 bytes as one 128-bit string, byte 0 most significant, shifted left by one; if the bit shifted out
was 1, 0x87 is XORed into byte 15. -/
def dbl (b : Block) : Block :=
  tabulate 16 (fun i =>
    if i < 15 then (byteAt b i <<< 1) ||| (byteAt b (i + 1) >>> 7)
    else (byteAt b 15 <<< 1) ^^^ (if (byteAt b 0).msb then 0x87 else 0x00))

/-- L, the encryption of the all-zero block (R236). -/
def cmacL (key : List Byte) : Block :=
  let (w, nr) := keyExpansion key
  encryptBlock zeroBlock w nr

/-- CmacSubkeys(key) = (K1, K2) (R238). -/
def cmacSubkeys (key : List Byte) : Block × Block :=
  let k1 := dbl (cmacL key)
  (k1, dbl k1)

/-- The message has a complete last block: it is not empty and its length is a multiple of 16 (R239). -/
def lastBlockComplete (msg : List Byte) : Bool := decide (0 < msg.length ∧ msg.length % 16 = 0)

/-- The number n of blocks of CmacTag, at least 1 (R239). -/
def cmacBlockCount (msg : List Byte) : Nat :=
  if lastBlockComplete msg then msg.length / 16 else msg.length / 16 + 1

/-- The last block before the chaining value is added (R239): complete and XORed with K1, or padded with 0x80 and zeros
and XORed with K2. -/
def cmacLast (k : Block × Block) (msg : List Byte) : Block :=
  let n := cmacBlockCount msg
  if lastBlockComplete msg then xorBytes (blockOf msg (n - 1)) k.1
  else xorBytes (ofBytes 16 (msg.drop (16 * (n - 1)) ++ [0x80])) k.2

/-- The chaining value after the blocks before the last (R239). -/
def cmacChain (w : List Byte) (nr : Nat) (msg : List Byte) : Block :=
  (List.range (cmacBlockCount msg - 1)).foldl
    (fun x j => encryptBlock (xorBytes x (blockOf msg j)) w nr) zeroBlock

/-- CmacTag(msg, key) (R239). -/
def cmacTag (msg key : List Byte) : Block :=
  let (w, nr) := keyExpansion key
  encryptBlock (xorBytes (cmacChain w nr msg) (cmacLast (cmacSubkeys key) msg)) w nr

/-- What CMACKEYS computes (R240). -/
def cmackeysBody (s : State) : Except ErrKind State := do
  let key ← keyOperand s
  let (k1, k2) := cmacSubkeys key
  return { s with k1 := k1, k2 := k2 }

/-- What CMAC computes (R243): it derives its own subkeys and never reads K1, K2. -/
def cmacBody (s : State) : Except ErrKind State := do
  let key ← keyOperand s
  requireFits s s.dlen
  return { s with tag := cmacTag (message s) key }

/-- CMACKEYS (R240). -/
def execCmackeys (s : State) : Result State := deliver s (cmackeysBody s)

/-- CMAC (R243). -/
def execCmac (s : State) : Result State := deliver s (cmacBody s)

end Sys2Proof.Machine
end

