-- ==== Sys2Proof/Machine/Padding.lean ====
section
/-! DEFINITION. The padding functions and the four padding commands (spec/43_padding.md). -/

namespace Sys2Proof.Machine

/-- The bytes PKCS#7 appends: n bytes equal to n (R190). -/
def pkcs7Fill (n : Nat) : List Byte := List.replicate n (BitVec.ofNat 8 n)

/-- The bytes Method 2 appends: 0x80, then n - 1 zero bytes (R192). -/
def m2Fill (n : Nat) : List Byte := 0x80 :: List.replicate (n - 1) 0x00

/-- Pkcs7Pad(m, bs) (R190): InvalidBlockSize for bs = 0 or bs > 255. -/
def pkcs7Pad (m : List Byte) (bs : Nat) : Except ErrKind (List Byte) :=
  if bs = 0 ∨ 255 < bs then .error .invalidBlockSize else .ok (m ++ pkcs7Fill (padCount m.length bs))

/-- M2Pad(m, bs) (R192): InvalidBlockSize for bs = 0 (and, as for PKCS#7, above 255). -/
def m2Pad (m : List Byte) (bs : Nat) : Except ErrKind (List Byte) :=
  if bs = 0 ∨ 255 < bs then .error .invalidBlockSize else .ok (m ++ m2Fill (padCount m.length bs))

/-- Pkcs7Unpad(m) (R191): the last byte n counts the pad bytes, each of which must be n. It takes no block size. -/
def pkcs7Unpad (m : List Byte) : Except ErrKind (List Byte) :=
  match m.getLast? with
  | none => .error .invalidPadding
  | some b =>
    let n := b.toNat
    if n = 0 ∨ m.length < n then .error .invalidPadding
    else if (m.drop (m.length - n)).all (fun c => c = b) then .ok (m.take (m.length - n))
    else .error .invalidPadding

/-- M2Unpad(m) (R194): from the end, skip zero bytes; the first other byte must be 0x80. No limit on the scan. -/
def m2Unpad (m : List Byte) : Except ErrKind (List Byte) :=
  match m.reverse.dropWhile (fun c => c = 0x00) with
  | [] => .error .invalidPadding
  | b :: rest => if b = 0x80 then .ok rest.reverse else .error .invalidPadding

/-- A standalone pad command (R193, R197): block size, then capacity on entry, then capacity of the result. -/
def padBody (fill : Nat → List Byte) (s : State) : Except ErrKind State := do
  let bs ← blockSizeOperand s
  requireFits s s.dlen
  let n := padCount s.dlen bs
  requireFits s (s.dlen + n)
  return { s with dbuf := s.dbuf.writeBytes s.dlen (fill n), dlen := s.dlen + n }

/-- A standalone unpad command (R195, R199): only DLEN changes. -/
def unpadBody (unpad : List Byte → Except ErrKind (List Byte)) (s : State) : Except ErrKind State := do
  requireFits s s.dlen
  let r ← unpad (message s)
  return { s with dlen := r.length }

/-- PKCS7PAD (R193). -/
def execPkcs7pad (s : State) : Result State := deliver s (padBody pkcs7Fill s)

/-- PKCS7UNPAD (R195). -/
def execPkcs7unpad (s : State) : Result State := deliver s (unpadBody pkcs7Unpad s)

/-- M2PAD (R197). -/
def execM2pad (s : State) : Result State := deliver s (padBody m2Fill s)

/-- M2UNPAD (R199). -/
def execM2unpad (s : State) : Result State := deliver s (unpadBody m2Unpad s)

end Sys2Proof.Machine
end

