-- ==== Sys2Proof/Machine/Modes.lean ====
section
/-! DEFINITION. ECB and CBC over whole messages, with padding, and the four mode commands (spec/44_modes.md). A mode command
uses a private schedule (R212) and commits only on success (R215). -/

namespace Sys2Proof.Machine

/-- ApplyPad(m, PAD) (R211): the block size is always 16. It cannot fail. -/
def applyPad (m : List Byte) (pad : PadScheme) : List Byte :=
  match pad with
  | .none => m
  | .pkcs7 => m ++ pkcs7Fill (padCount m.length 16)
  | .m2 => m ++ m2Fill (padCount m.length 16)

/-- ApplyUnpad(m, PAD) (R211). -/
def applyUnpad (m : List Byte) (pad : PadScheme) : Except ErrKind (List Byte) :=
  match pad with
  | .none => .ok m
  | .pkcs7 => pkcs7Unpad m
  | .m2 => m2Unpad m

/-- L', the length of the padded message (R213). -/
def paddedLength (len : Nat) (pad : PadScheme) : Nat :=
  match pad with
  | .none => len
  | .pkcs7 | .m2 => len + padCount len 16

/-- ECB: each block on its own (R213). -/
def ecbEncrypt (w : List Byte) (nr : Nat) (bs : List Block) : List Block := bs.map (fun b => encryptBlock b w nr)

/-- ECB decryption (R217). -/
def ecbDecrypt (w : List Byte) (nr : Nat) (bs : List Block) : List Block := bs.map (fun b => decryptBlock b w nr)

/-- CBC (R220): each block is XORed with the chaining value ch and encrypted; the result is the next chaining value. -/
def cbcEncrypt (w : List Byte) (nr : Nat) (ch : Block) (bs : List Block) : List Block :=
  match bs with
  | [] => []
  | b :: rest =>
    let c := encryptBlock (xorBytes b ch) w nr
    c :: cbcEncrypt w nr c rest

/-- CBC decryption (R223): each block is decrypted and XORed with ch; the ciphertext block is the next ch. -/
def cbcDecrypt (w : List Byte) (nr : Nat) (ch : Block) (bs : List Block) : List Block :=
  match bs with
  | [] => []
  | c :: rest => xorBytes (decryptBlock c w nr) ch :: cbcDecrypt w nr c rest

/-- The length and capacity checks of an encryption (R213, R220, R216). -/
def encryptChecks (pad : PadScheme) (s : State) : Except ErrKind Unit := do
  if pad = .none then requireAligned s
  requireFits s s.dlen
  requireFits s (paddedLength s.dlen pad)

/-- The length and capacity checks of a decryption (R217, R223, R216). -/
def decryptChecks (s : State) : Except ErrKind Unit := do
  requireAligned s
  requireFits s s.dlen

/-- The commit of an encryption: MemWrite(0, L', c), DLEN <- L' (R213). -/
def commitEncrypted (s : State) (c : List Byte) : State :=
  { s with dbuf := s.dbuf.writeBytes 0 c, dlen := c.length }

/-- The end of a decryption (R217): unpad p; on success all of p is written and DLEN cut to the unpadded length. -/
def commitDecrypted (pad : PadScheme) (s : State) (p : List Byte) : Except ErrKind State := do
  let r ← applyUnpad p pad
  return { s with dbuf := s.dbuf.writeBytes 0 p, dlen := r.length }

/-- What ECBENC computes (R213). -/
def ecbencBody (pad : PadScheme) (s : State) : Except ErrKind State := do
  let key ← keyOperand s
  encryptChecks pad s
  let (w, nr) := keyExpansion key
  return commitEncrypted s (joinBlocks (ecbEncrypt w nr (blocksOf (applyPad (message s) pad))))

/-- What ECBDEC computes (R217). -/
def ecbdecBody (pad : PadScheme) (s : State) : Except ErrKind State := do
  let key ← keyOperand s
  decryptChecks s
  let (w, nr) := keyExpansion key
  commitDecrypted pad s (joinBlocks (ecbDecrypt w nr (blocksOf (message s))))

/-- What CBCENC computes (R220): key, then IV, then the checks of ECBENC. -/
def cbcencBody (pad : PadScheme) (s : State) : Except ErrKind State := do
  let key ← keyOperand s
  let iv ← ivOperand s
  encryptChecks pad s
  let (w, nr) := keyExpansion key
  return commitEncrypted s (joinBlocks (cbcEncrypt w nr iv (blocksOf (applyPad (message s) pad))))

/-- What CBCDEC computes (R223). -/
def cbcdecBody (pad : PadScheme) (s : State) : Except ErrKind State := do
  let key ← keyOperand s
  let iv ← ivOperand s
  decryptChecks s
  let (w, nr) := keyExpansion key
  commitDecrypted pad s (joinBlocks (cbcDecrypt w nr iv (blocksOf (message s))))

/-- ECBENC pad=PAD (R213). -/
def execEcbenc (pad : PadScheme) (s : State) : Result State := deliver s (ecbencBody pad s)

/-- ECBDEC pad=PAD (R217). -/
def execEcbdec (pad : PadScheme) (s : State) : Result State := deliver s (ecbdecBody pad s)

/-- CBCENC pad=PAD (R220). -/
def execCbcenc (pad : PadScheme) (s : State) : Result State := deliver s (cbcencBody pad s)

/-- CBCDEC pad=PAD (R223). -/
def execCbcdec (pad : PadScheme) (s : State) : Result State := deliver s (cbcdecBody pad s)

end Sys2Proof.Machine
end

