-- ==== Sys2Proof/Machine/System.lean ====
section
/-! DEFINITION. The system commands: NOP is the only one (spec/46_system.md R255, R256). -/

namespace Sys2Proof.Machine

/-- NOP (R255): ERR <- 0 and nothing else. -/
def execNop (s : State) : Result State := complete s

end Sys2Proof.Machine
end

