-- ==== Sys2Proof/Machine/Dispatch.lean ====
section
/-! DEFINITION. One arm per command: the meaning it runs. -/

namespace Sys2Proof.Machine

def exec (i : Instr) (s : State) : Host.Outcome State Fault Refusal :=
  match i with
  | .nop => Sys2Proof.Machine.execNop s
  | .keyexp => Sys2Proof.Machine.execKeyexp s
  | .encblk => Sys2Proof.Machine.execEncblk s
  | .decblk => Sys2Proof.Machine.execDecblk s
  | .subbytes => Sys2Proof.Machine.execSubbytes s
  | .invsubbytes => Sys2Proof.Machine.execInvsubbytes s
  | .shiftrows => Sys2Proof.Machine.execShiftrows s
  | .invshiftrows => Sys2Proof.Machine.execInvshiftrows s
  | .mixcolumns => Sys2Proof.Machine.execMixcolumns s
  | .invmixcolumns => Sys2Proof.Machine.execInvmixcolumns s
  | .addroundkey rnd => Sys2Proof.Machine.execAddroundkey rnd s
  | .pkcs7pad => Sys2Proof.Machine.execPkcs7pad s
  | .pkcs7unpad => Sys2Proof.Machine.execPkcs7unpad s
  | .m2pad => Sys2Proof.Machine.execM2pad s
  | .m2unpad => Sys2Proof.Machine.execM2unpad s
  | .ecbenc pad => Sys2Proof.Machine.execEcbenc pad s
  | .ecbdec pad => Sys2Proof.Machine.execEcbdec pad s
  | .cbcenc pad => Sys2Proof.Machine.execCbcenc pad s
  | .cbcdec pad => Sys2Proof.Machine.execCbcdec pad s
  | .cmackeys => Sys2Proof.Machine.execCmackeys s
  | .cmac => Sys2Proof.Machine.execCmac s

end Sys2Proof.Machine
end

