-- ==== Sys2Proof/Machine/HostPort.lean ====
section
/-! DEFINITION. The host port: cells, the host's operations (spec/20_memory.md R60 to R69), the run of a command word, and
the default bus binding BUSMAP (R72). -/

namespace Sys2Proof.Machine

/-- (r, i) names a cell (R60): index 0 of a scalar, an index below the size of a byte register. -/
def cellExists (p : Config.Params) (r : Reg) (i : Nat) : Bool :=
  match r with
  | .cmd | .status | .keylen | .nr | .ivlen | .padbs | .dlen => decide (i = 0)
  | .key => decide (i < 32)
  | .rk => decide (i < 240)
  | .blk | .iv | .k1 | .k2 | .tag => decide (i < 16)
  | .dbuf => fitsBuffer p (i + 1)

/-- The value of the cell (r, i), zero-extended to a number (R66). -/
def readCell (s : State) (r : Reg) (i : Nat) : Nat :=
  match r with
  | .cmd => s.cmd.toNat
  | .status => s.status.toNat
  | .keylen => s.keylen.toNat
  | .nr => s.nr.toNat
  | .ivlen => s.ivlen.toNat
  | .padbs => s.padbs.toNat
  | .dlen => s.dlen
  | .key => (byteAt s.key i).toNat
  | .rk => (byteAt s.rk i).toNat
  | .blk => (byteAt s.blk i).toNat
  | .iv => (byteAt s.iv i).toNat
  | .k1 => (byteAt s.k1 i).toNat
  | .k2 => (byteAt s.k2 i).toNat
  | .tag => (byteAt s.tag i).toNat
  | .dbuf => (s.dbuf.read i).toNat

/-- The command word w is in CMD: run the command it encodes, or raise IllegalCommand (R39; spec/30_encoding.md R92;
spec/60_exceptions.md R266). -/
def runWord (w : BitVec 16) (s : State) : Result State :=
  match decode w with
  | .ok i => exec i s
  | .error _ => raise .illegalCommand s

/-- HostCommand(w) (R62): store w in CMD and run the command to completion (R39, R68). -/
def hostCommand (w : BitVec 16) (s : State) : Result State := runWord w { s with cmd := w }

/-- HostWrite(r, i, v) to an existing cell (spec/10_state.md R43): bits above the cell's width are discarded (R66), a
read-only register keeps its value, a write of CMD runs a command. -/
def hostWrite (r : Reg) (i v : Nat) (s : State) : Result State :=
  match r with
  | .cmd => hostCommand (BitVec.ofNat 16 v) s
  | .key => .next { s with key := setByteAt s.key i (BitVec.ofNat 8 v) }
  | .keylen => .next { s with keylen := BitVec.ofNat 8 v }
  | .iv => .next { s with iv := setByteAt s.iv i (BitVec.ofNat 8 v) }
  | .ivlen => .next { s with ivlen := BitVec.ofNat 8 v }
  | .blk => .next { s with blk := setByteAt s.blk i (BitVec.ofNat 8 v) }
  | .padbs => .next { s with padbs := BitVec.ofNat 8 v }
  | .dbuf => .next { s with dbuf := s.dbuf.write i (BitVec.ofNat 8 v) }
  | .dlen => .next { s with dlen := truncLength s.params v }
  | .status | .rk | .nr | .k1 | .k2 | .tag => .next s

/-- HostRead(r, i) of an existing cell (R62): its value goes to the host; no register changes (R69). -/
def hostRead (r : Reg) (i : Nat) (s : State) : Result State := .next { s with readData := some (readCell s r i) }

/-- Reset (spec/70_reset_and_hazards.md R300): every register at its reset value. The instance's parameters and what the
host has still to do are no registers and stay. -/
def hostReset (s : State) : State := { State.resetWith s.params with pending := s.pending }

/-- An access by name to the cell (r, i), or the fault where there is no such cell (R62). -/
def withCell (r : Reg) (i : Nat) (k : State → Result State) (s : State) : Result State :=
  if cellExists s.params r i then k s else .fault (.noSuchCell r i)

/-- The scalar register in the aligned 32-bit slot at a byte offset (R72). DESIGN CHOICE, unsafe: the slot at 0x0018 carries
all of DLEN also where DLEN is wider than 32 bits (LENW > 32, or MAXLEN unbounded; R7), of which R72 is silent (log
entry 14). -/
def busScalar (offset : Nat) : Option Reg :=
  if offset = 0x0000 then some .cmd
  else if offset = 0x0004 then some .status
  else if offset = 0x0008 then some .keylen
  else if offset = 0x000c then some .ivlen
  else if offset = 0x0010 then some .padbs
  else if offset = 0x0014 then some .nr
  else if offset = 0x0018 then some .dlen
  else none

/-- The byte cell at a byte offset (R72). -/
def busByte (p : Config.Params) (offset : Nat) : Option (Reg × Nat) :=
  if offset < 0x0020 then none
  else if offset < 0x0040 then some (.key, offset - 0x0020)
  else if offset < 0x0050 then some (.iv, offset - 0x0040)
  else if offset < 0x0060 then some (.blk, offset - 0x0050)
  else if offset < 0x0070 then some (.k1, offset - 0x0060)
  else if offset < 0x0080 then some (.k2, offset - 0x0070)
  else if offset < 0x0090 then some (.tag, offset - 0x0080)
  else if offset < 0x0100 then none
  else if offset < 0x01f0 then some (.rk, offset - 0x0100)
  else if offset < 0x1000 then none
  else if fitsBuffer p (offset - 0x1000 + 1) then some (.dbuf, offset - 0x1000)
  else none

/-- The cell a bus access of `size` bytes at `offset` reaches under the default BUSMAP (R72): a scalar's whole 4-byte slot
or one byte cell; no other access is defined. -/
def busCell (p : Config.Params) (offset size : Nat) : Option (Reg × Nat) :=
  if size = 4 then (busScalar offset).map (fun r => (r, 0))
  else if size = 1 then busByte p offset
  else none

/-- A bus access: the named access it stands for, with the whole value of the cell (DLEN wider than its slot: log
entry 14), or the refusal of a stray one (R72; 93_implementation_defined.md U9). -/
def withBusCell (offset size : Nat) (k : Reg → Nat → State → Result State) (s : State) : Result State :=
  match busCell s.params offset size with
  | some (r, i) => k r i s
  | none => .refused (.strayBusAccess offset size)

/-- One operation of the host on the state it finds (R62, R75: it takes effect completely before the next begins). -/
def hostStep (op : HostOp) (s : State) : Result State :=
  match op with
  | .read r i => withCell r i (hostRead r i) s
  | .write r i v => withCell r i (hostWrite r i v) s
  | .reset => .next (hostReset s)
  | .resetDuring _ => .next (hostReset s)
  | .busRead offset size => withBusCell offset size hostRead s
  | .busWrite offset size v => withBusCell offset size (fun r i => hostWrite r i v) s

/-- The state in which the host's oldest operation has been taken and the port answers nothing yet. -/
def takeOp (s : State) (rest : List HostOp) : State := { s with pending := rest, readData := none }

end Sys2Proof.Machine
end

