-- ==== Sys2Proof/Machine/Step.lean ====
section
/-! DEFINITION. One step of the machine: the host's oldest pending operation takes effect whole (spec/20_memory.md R68,
R75). The core does nothing on its own (spec/10_state.md R20), so with nothing pending a step changes nothing. -/

namespace Sys2Proof.Machine

/-- One step. A command runs exactly when the host writes CMD (R39). -/
def step (s : State) : Host.Outcome State Fault Refusal :=
  match s.pending with
  | [] => .next s
  | op :: rest => hostStep op (takeOp s rest)

/-- The machine whose very next step is the host's write of the command word w to CMD: the core fetches nothing (R23), so
this is how an instruction comes to run (log entry 2). -/
def State.withFetchWord (s : State) (nbits w : Nat) : State :=
  { s with pending := .write .cmd 0 (w % 2 ^ nbits) :: s.pending }

end Sys2Proof.Machine
end

