-- ==== Sys2Proof/Laws/Status.lean ====
section
/-! SUPPORT. STATUS: what each update of a field does to every field (R40). -/

namespace Sys2Proof.Machine

@[simp] theorem statusErr_statusWithErr (w : BitVec 16) (e : BitVec 4) : statusErr (statusWithErr w e) = e := by
  unfold statusErr statusWithErr
  ext i hi
  rw [BitVec.getElem_extractLsb', Nat.zero_add, BitVec.getLsbD_append, if_pos hi, BitVec.getLsbD_eq_getElem]

@[simp] theorem statusSchedValid_statusWithErr (w : BitVec 16) (e : BitVec 4) :
    statusSchedValid (statusWithErr w e) = statusSchedValid w := by
  simp only [statusSchedValid, statusWithErr, BitVec.getLsbD_append, BitVec.getLsbD_extractLsb']
  simp

@[simp] theorem statusReserved_statusWithErr (w : BitVec 16) (e : BitVec 4) :
    statusReserved (statusWithErr w e) = statusReserved w := by
  unfold statusReserved statusWithErr
  ext i hi
  simp only [BitVec.getElem_extractLsb', BitVec.getLsbD_append, BitVec.getLsbD_extractLsb']
  have h1 : ¬ 5 + i < 4 := by omega
  have h2 : 5 + i - 4 < 12 := by omega
  have h3 : 4 + (5 + i - 4) = 5 + i := by omega
  simp [h1, h2, h3]

@[simp] theorem statusErr_statusWithSchedValid (w : BitVec 16) : statusErr (statusWithSchedValid w) = statusErr w := by
  unfold statusErr statusWithSchedValid
  ext i hi
  have : (0x0010#16).getLsbD i = false := by interval_cases i <;> decide
  simp [this]

@[simp] theorem statusSchedValid_statusWithSchedValid (w : BitVec 16) :
    statusSchedValid (statusWithSchedValid w) = true := by
  simp [statusSchedValid, statusWithSchedValid]

@[simp] theorem statusReserved_statusWithSchedValid (w : BitVec 16) :
    statusReserved (statusWithSchedValid w) = statusReserved w := by
  unfold statusReserved statusWithSchedValid
  ext i hi
  have : (0x0010#16).getLsbD (5 + i) = false := by interval_cases i <;> decide
  simp [this]

/-- A STATUS word is its three fields. -/
theorem status_eq_of_fields {v w : BitVec 16} (he : statusErr v = statusErr w)
    (hs : statusSchedValid v = statusSchedValid w) (hr : statusReserved v = statusReserved w) : v = w := by
  apply BitVec.eq_of_getLsbD_eq
  intro i hi
  rcases Nat.lt_trichotomy i 4 with h | h | h
  · have := congrArg (fun x => x.getLsbD i) he
    simpa [statusErr, h] using this
  · subst h; exact hs
  · have := congrArg (fun x => x.getLsbD (i - 5)) hr
    have h5 : i - 5 < 11 := by omega
    have h6 : 5 + (i - 5) = i := by omega
    simpa [statusReserved, h5, h6] using this

/-- Setting ERR twice is setting it once. -/
@[simp] theorem statusWithErr_statusWithErr (w : BitVec 16) (e f : BitVec 4) :
    statusWithErr (statusWithErr w e) f = statusWithErr w f :=
  status_eq_of_fields (by simp) (by simp) (by simp)

theorem errCode_ne_zero (e : ErrKind) : errCode e ≠ 0 := by cases e <;> decide

theorem errCode_le (e : ErrKind) : (errCode e).toNat ≤ 8 := by cases e <;> decide

theorem errCode_injective : Function.Injective errCode := by
  intro e f; cases e <;> cases f <;> decide

end Sys2Proof.Machine
end

