-- ==== Sys2Proof/Laws/State.lean ====
section
/-! SUPPORT. One lemma per field per update of State: no later proof unfolds a record update. -/

namespace Sys2Proof.Machine

@[simp] theorem setErr_cmd (s : State) (e : BitVec 4) : (s.setErr e).cmd = s.cmd := rfl
@[simp] theorem setErr_status (s : State) (e : BitVec 4) : (s.setErr e).status = statusWithErr s.status e := rfl
@[simp] theorem setErr_key (s : State) (e : BitVec 4) : (s.setErr e).key = s.key := rfl
@[simp] theorem setErr_keylen (s : State) (e : BitVec 4) : (s.setErr e).keylen = s.keylen := rfl
@[simp] theorem setErr_rk (s : State) (e : BitVec 4) : (s.setErr e).rk = s.rk := rfl
@[simp] theorem setErr_nr (s : State) (e : BitVec 4) : (s.setErr e).nr = s.nr := rfl
@[simp] theorem setErr_blk (s : State) (e : BitVec 4) : (s.setErr e).blk = s.blk := rfl
@[simp] theorem setErr_iv (s : State) (e : BitVec 4) : (s.setErr e).iv = s.iv := rfl
@[simp] theorem setErr_ivlen (s : State) (e : BitVec 4) : (s.setErr e).ivlen = s.ivlen := rfl
@[simp] theorem setErr_padbs (s : State) (e : BitVec 4) : (s.setErr e).padbs = s.padbs := rfl
@[simp] theorem setErr_dbuf (s : State) (e : BitVec 4) : (s.setErr e).dbuf = s.dbuf := rfl
@[simp] theorem setErr_dlen (s : State) (e : BitVec 4) : (s.setErr e).dlen = s.dlen := rfl
@[simp] theorem setErr_k1 (s : State) (e : BitVec 4) : (s.setErr e).k1 = s.k1 := rfl
@[simp] theorem setErr_k2 (s : State) (e : BitVec 4) : (s.setErr e).k2 = s.k2 := rfl
@[simp] theorem setErr_tag (s : State) (e : BitVec 4) : (s.setErr e).tag = s.tag := rfl
@[simp] theorem setErr_params (s : State) (e : BitVec 4) : (s.setErr e).params = s.params := rfl
@[simp] theorem setErr_pending (s : State) (e : BitVec 4) : (s.setErr e).pending = s.pending := rfl
@[simp] theorem setErr_readData (s : State) (e : BitVec 4) : (s.setErr e).readData = s.readData := rfl

@[simp] theorem setSchedValid_cmd (s : State) : s.setSchedValid.cmd = s.cmd := rfl
@[simp] theorem setSchedValid_status (s : State) : s.setSchedValid.status = statusWithSchedValid s.status := rfl
@[simp] theorem setSchedValid_key (s : State) : s.setSchedValid.key = s.key := rfl
@[simp] theorem setSchedValid_keylen (s : State) : s.setSchedValid.keylen = s.keylen := rfl
@[simp] theorem setSchedValid_rk (s : State) : s.setSchedValid.rk = s.rk := rfl
@[simp] theorem setSchedValid_nr (s : State) : s.setSchedValid.nr = s.nr := rfl
@[simp] theorem setSchedValid_blk (s : State) : s.setSchedValid.blk = s.blk := rfl
@[simp] theorem setSchedValid_iv (s : State) : s.setSchedValid.iv = s.iv := rfl
@[simp] theorem setSchedValid_ivlen (s : State) : s.setSchedValid.ivlen = s.ivlen := rfl
@[simp] theorem setSchedValid_padbs (s : State) : s.setSchedValid.padbs = s.padbs := rfl
@[simp] theorem setSchedValid_dbuf (s : State) : s.setSchedValid.dbuf = s.dbuf := rfl
@[simp] theorem setSchedValid_dlen (s : State) : s.setSchedValid.dlen = s.dlen := rfl
@[simp] theorem setSchedValid_k1 (s : State) : s.setSchedValid.k1 = s.k1 := rfl
@[simp] theorem setSchedValid_k2 (s : State) : s.setSchedValid.k2 = s.k2 := rfl
@[simp] theorem setSchedValid_tag (s : State) : s.setSchedValid.tag = s.tag := rfl
@[simp] theorem setSchedValid_params (s : State) : s.setSchedValid.params = s.params := rfl
@[simp] theorem setSchedValid_pending (s : State) : s.setSchedValid.pending = s.pending := rfl
@[simp] theorem setSchedValid_readData (s : State) : s.setSchedValid.readData = s.readData := rfl

@[simp] theorem takeOp_cmd (s : State) (rest : List HostOp) : (takeOp s rest).cmd = s.cmd := rfl
@[simp] theorem takeOp_status (s : State) (rest : List HostOp) : (takeOp s rest).status = s.status := rfl
@[simp] theorem takeOp_key (s : State) (rest : List HostOp) : (takeOp s rest).key = s.key := rfl
@[simp] theorem takeOp_keylen (s : State) (rest : List HostOp) : (takeOp s rest).keylen = s.keylen := rfl
@[simp] theorem takeOp_rk (s : State) (rest : List HostOp) : (takeOp s rest).rk = s.rk := rfl
@[simp] theorem takeOp_nr (s : State) (rest : List HostOp) : (takeOp s rest).nr = s.nr := rfl
@[simp] theorem takeOp_blk (s : State) (rest : List HostOp) : (takeOp s rest).blk = s.blk := rfl
@[simp] theorem takeOp_iv (s : State) (rest : List HostOp) : (takeOp s rest).iv = s.iv := rfl
@[simp] theorem takeOp_ivlen (s : State) (rest : List HostOp) : (takeOp s rest).ivlen = s.ivlen := rfl
@[simp] theorem takeOp_padbs (s : State) (rest : List HostOp) : (takeOp s rest).padbs = s.padbs := rfl
@[simp] theorem takeOp_dbuf (s : State) (rest : List HostOp) : (takeOp s rest).dbuf = s.dbuf := rfl
@[simp] theorem takeOp_dlen (s : State) (rest : List HostOp) : (takeOp s rest).dlen = s.dlen := rfl
@[simp] theorem takeOp_k1 (s : State) (rest : List HostOp) : (takeOp s rest).k1 = s.k1 := rfl
@[simp] theorem takeOp_k2 (s : State) (rest : List HostOp) : (takeOp s rest).k2 = s.k2 := rfl
@[simp] theorem takeOp_tag (s : State) (rest : List HostOp) : (takeOp s rest).tag = s.tag := rfl
@[simp] theorem takeOp_params (s : State) (rest : List HostOp) : (takeOp s rest).params = s.params := rfl
@[simp] theorem takeOp_pending (s : State) (rest : List HostOp) : (takeOp s rest).pending = rest := rfl
@[simp] theorem takeOp_readData (s : State) (rest : List HostOp) : (takeOp s rest).readData = none := rfl

@[simp] theorem withFetchWord_cmd (s : State) (nbits w : Nat) : (s.withFetchWord nbits w).cmd = s.cmd := rfl
@[simp] theorem withFetchWord_status (s : State) (nbits w : Nat) : (s.withFetchWord nbits w).status = s.status := rfl
@[simp] theorem withFetchWord_key (s : State) (nbits w : Nat) : (s.withFetchWord nbits w).key = s.key := rfl
@[simp] theorem withFetchWord_keylen (s : State) (nbits w : Nat) : (s.withFetchWord nbits w).keylen = s.keylen := rfl
@[simp] theorem withFetchWord_rk (s : State) (nbits w : Nat) : (s.withFetchWord nbits w).rk = s.rk := rfl
@[simp] theorem withFetchWord_nr (s : State) (nbits w : Nat) : (s.withFetchWord nbits w).nr = s.nr := rfl
@[simp] theorem withFetchWord_blk (s : State) (nbits w : Nat) : (s.withFetchWord nbits w).blk = s.blk := rfl
@[simp] theorem withFetchWord_iv (s : State) (nbits w : Nat) : (s.withFetchWord nbits w).iv = s.iv := rfl
@[simp] theorem withFetchWord_ivlen (s : State) (nbits w : Nat) : (s.withFetchWord nbits w).ivlen = s.ivlen := rfl
@[simp] theorem withFetchWord_padbs (s : State) (nbits w : Nat) : (s.withFetchWord nbits w).padbs = s.padbs := rfl
@[simp] theorem withFetchWord_dbuf (s : State) (nbits w : Nat) : (s.withFetchWord nbits w).dbuf = s.dbuf := rfl
@[simp] theorem withFetchWord_dlen (s : State) (nbits w : Nat) : (s.withFetchWord nbits w).dlen = s.dlen := rfl
@[simp] theorem withFetchWord_k1 (s : State) (nbits w : Nat) : (s.withFetchWord nbits w).k1 = s.k1 := rfl
@[simp] theorem withFetchWord_k2 (s : State) (nbits w : Nat) : (s.withFetchWord nbits w).k2 = s.k2 := rfl
@[simp] theorem withFetchWord_tag (s : State) (nbits w : Nat) : (s.withFetchWord nbits w).tag = s.tag := rfl
@[simp] theorem withFetchWord_params (s : State) (nbits w : Nat) : (s.withFetchWord nbits w).params = s.params := rfl
@[simp] theorem withFetchWord_pending (s : State) (nbits w : Nat) : (s.withFetchWord nbits w).pending = .write .cmd 0 (w % 2 ^ nbits) :: s.pending := rfl
@[simp] theorem withFetchWord_readData (s : State) (nbits w : Nat) : (s.withFetchWord nbits w).readData = s.readData := rfl

@[simp] theorem hostReset_cmd (s : State) : (hostReset s).cmd = State.reset.cmd := rfl
@[simp] theorem hostReset_status (s : State) : (hostReset s).status = State.reset.status := rfl
@[simp] theorem hostReset_key (s : State) : (hostReset s).key = State.reset.key := rfl
@[simp] theorem hostReset_keylen (s : State) : (hostReset s).keylen = State.reset.keylen := rfl
@[simp] theorem hostReset_rk (s : State) : (hostReset s).rk = State.reset.rk := rfl
@[simp] theorem hostReset_nr (s : State) : (hostReset s).nr = State.reset.nr := rfl
@[simp] theorem hostReset_blk (s : State) : (hostReset s).blk = State.reset.blk := rfl
@[simp] theorem hostReset_iv (s : State) : (hostReset s).iv = State.reset.iv := rfl
@[simp] theorem hostReset_ivlen (s : State) : (hostReset s).ivlen = State.reset.ivlen := rfl
@[simp] theorem hostReset_padbs (s : State) : (hostReset s).padbs = State.reset.padbs := rfl
@[simp] theorem hostReset_dbuf (s : State) : (hostReset s).dbuf = State.reset.dbuf := rfl
@[simp] theorem hostReset_dlen (s : State) : (hostReset s).dlen = State.reset.dlen := rfl
@[simp] theorem hostReset_k1 (s : State) : (hostReset s).k1 = State.reset.k1 := rfl
@[simp] theorem hostReset_k2 (s : State) : (hostReset s).k2 = State.reset.k2 := rfl
@[simp] theorem hostReset_tag (s : State) : (hostReset s).tag = State.reset.tag := rfl
@[simp] theorem hostReset_params (s : State) : (hostReset s).params = s.params := rfl
@[simp] theorem hostReset_pending (s : State) : (hostReset s).pending = s.pending := rfl
@[simp] theorem hostReset_readData (s : State) : (hostReset s).readData = State.reset.readData := rfl

@[simp] theorem err_setErr (s : State) (e : BitVec 4) : (s.setErr e).err = e := by simp [State.err]

@[simp] theorem schedValid_setErr (s : State) (e : BitVec 4) : (s.setErr e).schedValid = s.schedValid := by
  simp [State.schedValid]

@[simp] theorem err_setSchedValid (s : State) : s.setSchedValid.err = s.err := by simp [State.err]

@[simp] theorem schedValid_setSchedValid (s : State) : s.setSchedValid.schedValid = true := by simp [State.schedValid]

@[simp] theorem setErr_setErr (s : State) (e f : BitVec 4) : (s.setErr e).setErr f = s.setErr f := by
  simp [State.setErr]

end Sys2Proof.Machine
end

