-- ==== Sys2Proof/Laws/Commands.lean ====
section
/-! SUPPORT. Every command is one delivery of a body, and for each body: exactly when it succeeds and with what state.
Later proofs cite these and unfold no meaning. -/

namespace Sys2Proof.Machine

@[simp] theorem deliver_ok (s t : State) : deliver s (.ok t) = .next (t.setErr 0) := rfl

@[simp] theorem deliver_error (s : State) (e : ErrKind) : deliver s (.error e) = .next (s.setErr (errCode e)) := rfl

/-- What a delivery can answer: the body's state with ERR = 0, or the old state with ERR the code. -/
theorem deliver_cases {s t : State} {r : Except ErrKind State} (h : deliver s r = .next t) :
    (∃ u, r = .ok u ∧ t = u.setErr 0) ∨ (∃ e, r = .error e ∧ t = s.setErr (errCode e)) := by
  cases r with
  | ok u => exact .inl ⟨u, rfl, by simpa using h.symm⟩
  | error e => exact .inr ⟨e, rfl, by simpa using h.symm⟩

/-- The body of each command. -/
def commandBody (i : Instr) (s : State) : Except ErrKind State :=
  match i with
  | .nop => .ok s
  | .keyexp => keyexpBody s
  | .encblk => blockBody encryptBlock s
  | .decblk => blockBody decryptBlock s
  | .subbytes => .ok { s with blk := subBytes s.blk }
  | .invsubbytes => .ok { s with blk := invSubBytes s.blk }
  | .shiftrows => .ok { s with blk := shiftRows s.blk }
  | .invshiftrows => .ok { s with blk := invShiftRows s.blk }
  | .mixcolumns => .ok { s with blk := mixColumns s.blk }
  | .invmixcolumns => .ok { s with blk := invMixColumns s.blk }
  | .addroundkey r => addroundkeyBody r s
  | .pkcs7pad => padBody pkcs7Fill s
  | .pkcs7unpad => unpadBody pkcs7Unpad s
  | .m2pad => padBody m2Fill s
  | .m2unpad => unpadBody m2Unpad s
  | .ecbenc pad => ecbencBody pad s
  | .ecbdec pad => ecbdecBody pad s
  | .cbcenc pad => cbcencBody pad s
  | .cbcdec pad => cbcdecBody pad s
  | .cmackeys => cmackeysBody s
  | .cmac => cmacBody s

theorem exec_eq_deliver (i : Instr) (s : State) : exec i s = deliver s (commandBody i s) := by cases i <;> rfl

/-! The operands. -/

theorem ok_eq_ok {α : Type} {a b : α} : (Except.ok a : Except ErrKind α) = .ok b ↔ b = a := by
  rw [Except.ok.injEq, eq_comm]

theorem error_eq_error {α : Type} {e f : ErrKind} : (Except.error e : Except ErrKind α) = .error f ↔ f = e := by
  rw [Except.error.injEq, eq_comm]

theorem bind_eq_ok {α β : Type} {x : Except ErrKind α} {f : α → Except ErrKind β} {b : β} :
    (x >>= f) = .ok b ↔ ∃ a, x = .ok a ∧ f a = .ok b := by
  cases x <;> simp [bind, Except.bind]

theorem bind_eq_error {α β : Type} {x : Except ErrKind α} {f : α → Except ErrKind β} {e : ErrKind} :
    (x >>= f) = .error e ↔ x = .error e ∨ ∃ a, x = .ok a ∧ f a = .error e := by
  cases x <;> simp [bind, Except.bind]

@[simp] theorem pure_eq_ok {α : Type} (a : α) : (pure a : Except ErrKind α) = .ok a := rfl

theorem require_eq_ok {p : Bool} {e : ErrKind} {u : Unit} : require p e = .ok u ↔ p = true := by
  cases p <;> simp [require]

theorem require_eq_error {p : Bool} {e f : ErrKind} : require p e = .error f ↔ p = false ∧ e = f := by
  cases p <;> simp [require]

theorem keyOperand_eq_ok {s : State} {k : List Byte} :
    keyOperand s = .ok k ↔ keyLengthOk s = true ∧ k = keyBytes s := by
  unfold keyOperand; split <;> simp_all [ok_eq_ok, -Except.ok.injEq]

theorem keyOperand_eq_error {s : State} {e : ErrKind} :
    keyOperand s = .error e ↔ keyLengthOk s = false ∧ e = .invalidKeyLength := by
  unfold keyOperand; split <;> simp_all [error_eq_error, -Except.error.injEq]

theorem ivOperand_eq_ok {s : State} {v : Block} : ivOperand s = .ok v ↔ s.ivlen = 16 ∧ v = s.iv := by
  unfold ivOperand; split <;> simp_all [ok_eq_ok, -Except.ok.injEq]

theorem ivOperand_eq_error {s : State} {e : ErrKind} :
    ivOperand s = .error e ↔ s.ivlen ≠ 16 ∧ e = .invalidIVLength := by
  unfold ivOperand; split <;> simp_all [error_eq_error, -Except.error.injEq]

theorem scheduleOperand_eq_ok {s : State} {x : List Byte × Nat} :
    scheduleOperand s = .ok x ↔ s.schedValid = true ∧ x = (scheduleBytes s, s.nr.toNat) := by
  unfold scheduleOperand; split <;> simp_all [ok_eq_ok, -Except.ok.injEq]

theorem scheduleOperand_eq_error {s : State} {e : ErrKind} :
    scheduleOperand s = .error e ↔ s.schedValid = false ∧ e = .noSchedule := by
  unfold scheduleOperand; split <;> simp_all [error_eq_error, -Except.error.injEq]

theorem blockSizeOperand_eq_ok {s : State} {n : Nat} :
    blockSizeOperand s = .ok n ↔ s.padbs ≠ 0 ∧ n = s.padbs.toNat := by
  unfold blockSizeOperand; split <;> simp_all [ok_eq_ok, -Except.ok.injEq]

theorem blockSizeOperand_eq_error {s : State} {e : ErrKind} :
    blockSizeOperand s = .error e ↔ s.padbs = 0 ∧ e = .invalidBlockSize := by
  unfold blockSizeOperand; split <;> simp_all [error_eq_error, -Except.error.injEq]

theorem requireFits_eq_ok {s : State} {n : Nat} {u : Unit} : requireFits s n = .ok u ↔ fitsBuffer s.params n = true :=
  require_eq_ok

theorem requireFits_eq_error {s : State} {n : Nat} {e : ErrKind} :
    requireFits s n = .error e ↔ fitsBuffer s.params n = false ∧ e = .capacityExceeded :=
  require_eq_error.trans (and_congr_right fun _ => eq_comm)

theorem requireAligned_eq_ok {s : State} {u : Unit} : requireAligned s = .ok u ↔ s.dlen % 16 = 0 :=
  require_eq_ok.trans (by simp)

theorem requireAligned_eq_error {s : State} {e : ErrKind} :
    requireAligned s = .error e ↔ s.dlen % 16 ≠ 0 ∧ e = .invalidInputLength :=
  require_eq_error.trans (by simp [eq_comm])

/-- A key that passes the check has 16, 24 or 32 bytes. -/
theorem keyBytes_length {s : State} (h : keyLengthOk s = true) :
    (keyBytes s).length = s.keylen.toNat ∧
      ((keyBytes s).length = 16 ∨ (keyBytes s).length = 24 ∨ (keyBytes s).length = 32) := by
  simp only [keyLengthOk, Bool.or_eq_true, decide_eq_true_eq] at h
  rcases h with (h | h) | h <;> simp [keyBytes, h]

/-! The bodies. -/

theorem keyexpBody_eq_ok {s u : State} :
    keyexpBody s = .ok u ↔ keyLengthOk s = true ∧
      u = State.setSchedValid { s with
        rk := rkOf (scheduleOf (keyBytes s)), nr := BitVec.ofNat 8 (roundCount (keyBytes s)) } := by
  simp [keyexpBody, bind_eq_ok, keyOperand_eq_ok, keyExpansion, ok_eq_ok, -Except.ok.injEq, and_assoc]

theorem addroundkeyBody_eq_ok {r : Nat} {s u : State} :
    addroundkeyBody r s = .ok u ↔ s.schedValid = true ∧ r ≤ s.nr.toNat ∧
      u = { s with blk := addRoundKey s.blk (scheduleBytes s) r } := by
  simp [addroundkeyBody, bind_eq_ok, scheduleOperand_eq_ok, require_eq_ok, ok_eq_ok, -Except.ok.injEq, and_assoc]

theorem blockBody_eq_ok {f : Block → List Byte → Nat → Block} {s u : State} :
    blockBody f s = .ok u ↔ s.schedValid = true ∧
      u = { s with blk := f s.blk ((scheduleBytes s).take (16 * (s.nr.toNat + 1))) s.nr.toNat } := by
  simp [blockBody, bind_eq_ok, scheduleOperand_eq_ok, ok_eq_ok, -Except.ok.injEq]

theorem padBody_eq_ok {fill : Nat → List Byte} {s u : State} :
    padBody fill s = .ok u ↔ s.padbs ≠ 0 ∧ fitsBuffer s.params s.dlen = true ∧
      fitsBuffer s.params (s.dlen + padCount s.dlen s.padbs.toNat) = true ∧
      u = { s with
        dbuf := s.dbuf.writeBytes s.dlen (fill (padCount s.dlen s.padbs.toNat)),
        dlen := s.dlen + padCount s.dlen s.padbs.toNat } := by
  simp [padBody, bind_eq_ok, blockSizeOperand_eq_ok, requireFits_eq_ok, ok_eq_ok, -Except.ok.injEq]

theorem unpadBody_eq_ok {f : List Byte → Except ErrKind (List Byte)} {s u : State} :
    unpadBody f s = .ok u ↔ fitsBuffer s.params s.dlen = true ∧
      ∃ r, f (message s) = .ok r ∧ u = { s with dlen := r.length } := by
  simp [unpadBody, bind_eq_ok, requireFits_eq_ok, ok_eq_ok, -Except.ok.injEq]

theorem encryptChecks_eq_ok {pad : PadScheme} {s : State} {u : Unit} :
    encryptChecks pad s = .ok u ↔ (pad = .none → s.dlen % 16 = 0) ∧ fitsBuffer s.params s.dlen = true ∧
      fitsBuffer s.params (paddedLength s.dlen pad) = true := by
  cases pad <;> simp [encryptChecks, bind_eq_ok, requireAligned_eq_ok, requireFits_eq_ok]

theorem decryptChecks_eq_ok {s : State} {u : Unit} :
    decryptChecks s = .ok u ↔ s.dlen % 16 = 0 ∧ fitsBuffer s.params s.dlen = true := by
  simp [decryptChecks, bind_eq_ok, requireAligned_eq_ok, requireFits_eq_ok]

theorem commitDecrypted_eq_ok {pad : PadScheme} {s u : State} {p : List Byte} :
    commitDecrypted pad s p = .ok u ↔
      ∃ r, applyUnpad p pad = .ok r ∧ u = { s with dbuf := s.dbuf.writeBytes 0 p, dlen := r.length } := by
  simp [commitDecrypted, bind_eq_ok, ok_eq_ok, -Except.ok.injEq]

theorem ecbencBody_eq_ok {pad : PadScheme} {s u : State} :
    ecbencBody pad s = .ok u ↔ keyLengthOk s = true ∧ encryptChecks pad s = .ok () ∧
      u = commitEncrypted s (joinBlocks (ecbEncrypt (scheduleOf (keyBytes s)) (roundCount (keyBytes s))
        (blocksOf (applyPad (message s) pad)))) := by
  simp [ecbencBody, bind_eq_ok, keyOperand_eq_ok, keyExpansion, ok_eq_ok, -Except.ok.injEq]
  tauto

theorem ecbdecBody_eq_ok {pad : PadScheme} {s u : State} :
    ecbdecBody pad s = .ok u ↔ keyLengthOk s = true ∧ decryptChecks s = .ok () ∧
      commitDecrypted pad s (joinBlocks (ecbDecrypt (scheduleOf (keyBytes s)) (roundCount (keyBytes s))
        (blocksOf (message s)))) = .ok u := by
  simp [ecbdecBody, bind_eq_ok, keyOperand_eq_ok, keyExpansion]
  tauto

theorem cbcencBody_eq_ok {pad : PadScheme} {s u : State} :
    cbcencBody pad s = .ok u ↔ keyLengthOk s = true ∧ s.ivlen = 16 ∧ encryptChecks pad s = .ok () ∧
      u = commitEncrypted s (joinBlocks (cbcEncrypt (scheduleOf (keyBytes s)) (roundCount (keyBytes s)) s.iv
        (blocksOf (applyPad (message s) pad)))) := by
  simp [cbcencBody, bind_eq_ok, keyOperand_eq_ok, ivOperand_eq_ok, keyExpansion, ok_eq_ok, -Except.ok.injEq]
  tauto

theorem cbcdecBody_eq_ok {pad : PadScheme} {s u : State} :
    cbcdecBody pad s = .ok u ↔ keyLengthOk s = true ∧ s.ivlen = 16 ∧ decryptChecks s = .ok () ∧
      commitDecrypted pad s (joinBlocks (cbcDecrypt (scheduleOf (keyBytes s)) (roundCount (keyBytes s)) s.iv
        (blocksOf (message s)))) = .ok u := by
  simp [cbcdecBody, bind_eq_ok, keyOperand_eq_ok, ivOperand_eq_ok, keyExpansion]
  tauto

theorem cmackeysBody_eq_ok {s u : State} :
    cmackeysBody s = .ok u ↔ keyLengthOk s = true ∧
      u = { s with k1 := (cmacSubkeys (keyBytes s)).1, k2 := (cmacSubkeys (keyBytes s)).2 } := by
  simp [cmackeysBody, bind_eq_ok, keyOperand_eq_ok, ok_eq_ok, -Except.ok.injEq, and_assoc]

theorem cmacBody_eq_ok {s u : State} :
    cmacBody s = .ok u ↔ keyLengthOk s = true ∧ fitsBuffer s.params s.dlen = true ∧
      u = { s with tag := cmacTag (message s) (keyBytes s) } := by
  simp [cmacBody, bind_eq_ok, keyOperand_eq_ok, requireFits_eq_ok, ok_eq_ok, -Except.ok.injEq]

/-- The message is as long as DLEN says. -/
@[simp] theorem message_length (s : State) : (message s).length = s.dlen := by
  simp [message, Memory.readBytes]

theorem getD_message (s : State) {a : Nat} (h : a < s.dlen) : (message s).getD a 0 = s.dbuf.read a := by
  simp [message, Memory.readBytes, h]

end Sys2Proof.Machine
end

