-- ==== Sys2Proof/Safety.lean ====
section
/-! DEFINITION. The invariant of the machine, in the spec's own terms, and what a safe step is. -/

namespace Sys2Proof.Machine

/-- DLEN fits its width: below 2^LENW where MAXLEN is bounded (spec/00_scope.md R7). -/
def lengthFits (p : Config.Params) (n : Nat) : Bool :=
  match p.maxLen with
  | none => true
  | some _ => decide (n < 2 ^ p.lenW)

/-- DBUF is an array of MAXLEN bytes in canonical form, and DLEN fits its width (spec/10_state.md R22, R29). -/
def BufferInv (s : State) : Prop :=
  s.params.legal = true ∧ s.dbuf.wf ∧ (∀ c ∈ s.dbuf, fitsBuffer s.params (c.1 + 1) = true) ∧
    lengthFits s.params s.dlen = true

/-- STATUS: the reserved bits read as 0 and ERR is 0 to 8 (spec/10_state.md R40; 93_implementation_defined.md U7). -/
def StatusInv (s : State) : Prop := statusReserved s.status = 0 ∧ s.err.toNat ≤ 8

/-- RK, NR and SCHED_VALID are one value (spec/10_state.md R25, R40): when the flag is 1 they hold the schedule of some key
of a legal length, zero-filled; when it is 0, NR is 0 and RK all zero. -/
def ScheduleInv (s : State) : Prop :=
  if s.schedValid then
    ∃ key : List Byte, (key.length = 16 ∨ key.length = 24 ∨ key.length = 32) ∧
      s.rk = rkOf (scheduleOf key) ∧ s.nr = BitVec.ofNat 8 (roundCount key)
  else s.nr = 0 ∧ s.rk = Vector.replicate 240 0

/-- The invariant every step keeps. -/
def Inv (s : State) : Prop := BufferInv s ∧ StatusInv s ∧ ScheduleInv s

/-- A safe host operation names an existing cell: by name (R62) or through the default BUSMAP (R72). -/
def safeOp (p : Config.Params) (op : HostOp) : Bool :=
  match op with
  | .read r i | .write r i _ => cellExists p r i
  | .reset | .resetDuring _ => true
  | .busRead offset size | .busWrite offset size _ => (busCell p offset size).isSome

/-- Every operation the host has pending is safe. -/
def SafeHost (s : State) : Prop := ∀ op ∈ s.pending, safeOp s.params op = true

end Sys2Proof.Machine
end

