-- ==== Sys2Proof/Certificates/Slice0/Obligations.lean ====
section
/-! DEFINITION. The statements for the provers. Each docstring names the rule of spec/ it formalises. The names in
Sys2Proof.Claims only shorten the statements. -/

namespace Sys2Proof.Claims

open Sys2Proof.Machine

/-- KEYLEN selects a key size (R143). -/
def LegalKeyLen (s : State) : Prop := s.keylen = 16 ∨ s.keylen = 24 ∨ s.keylen = 32

/-- n bytes fit DBUF (R268): n <= MAXLEN where MAXLEN is bounded. -/
def Fits (s : State) (n : Nat) : Prop := ∀ m, s.params.maxLen = some m → n ≤ m

/-- The schedule and the round count of the key in KEY (R142, R212). -/
def sched (s : State) : List Byte := (keyExpansion (keyBytes s)).1

/-- The round count of the key in KEY (R140). -/
def rounds (s : State) : Nat := (keyExpansion (keyBytes s)).2

/-- t is s but for BLK, and ERR is 0; every other bit of STATUS is kept. -/
def OnlyBlkAndOk (s t : State) : Prop :=
  t = { s with blk := t.blk, status := t.status } ∧ t.err = 0 ∧ t.schedValid = s.schedValid ∧
    statusReserved t.status = statusReserved s.status

/-- t is s but for DBUF and DLEN, and ERR is 0; every other bit of STATUS is kept. -/
def OnlyBufferAndOk (s t : State) : Prop :=
  t = { s with dbuf := t.dbuf, dlen := t.dlen, status := t.status } ∧ t.err = 0 ∧ t.schedValid = s.schedValid ∧
    statusReserved t.status = statusReserved s.status

/-- p is the message m padded by the scheme to 16 (R211). -/
def IsPadded (pad : PadScheme) (m p : List Byte) : Prop :=
  match pad with
  | .none => p = m
  | .pkcs7 => pkcs7Pad m 16 = .ok p
  | .m2 => m2Pad m 16 = .ok p

/-- What unpadding by the scheme gives (R211). -/
def unpadBy (pad : PadScheme) (p : List Byte) : Except ErrKind (List Byte) :=
  match pad with
  | .none => .ok p
  | .pkcs7 => pkcs7Unpad p
  | .m2 => m2Unpad p

/-- The message decrypted block by block (R217). -/
def IsEcbPlain (s : State) (p : List Byte) : Prop :=
  p.length = s.dlen ∧
    ∀ j, j < s.dlen / 16 → blockOf p j = decryptBlock (blockOf (message s) j) (sched s) (rounds s)

/-- The chaining value of block j: the IV for block 0, ciphertext block j - 1 after it (R220, R223). -/
def chainValue (iv : Block) (c : List Byte) (j : Nat) : Block :=
  match j with
  | 0 => iv
  | k + 1 => blockOf c k

/-- The message decrypted in CBC (R223). -/
def IsCbcPlain (s : State) (p : List Byte) : Prop :=
  p.length = s.dlen ∧
    ∀ j, j < s.dlen / 16 →
      blockOf p j =
        xorBytes (decryptBlock (blockOf (message s) j) (sched s) (rounds s)) (chainValue s.iv (message s) j)

/-- Commands run one after another. -/
def runCommands (is : List Instr) (s : State) : Result State :=
  match is with
  | [] => .next s
  | i :: rest =>
    match exec i s with
    | .next t => runCommands rest t
    | r => r

/-- The step commands in the order of R171. -/
def cipherSteps (nr : Nat) : List Instr :=
  .addroundkey 0 ::
    ((List.range' 1 (nr - 1)).flatMap (fun r => [.subbytes, .shiftrows, .mixcolumns, .addroundkey r]) ++
      [.subbytes, .shiftrows, .addroundkey nr])

/-- The step commands in the order of R173. -/
def inverseSteps (nr : Nat) : List Instr :=
  [.addroundkey nr, .invshiftrows, .invsubbytes] ++
    ((List.range' 1 (nr - 1)).reverse.flatMap
        (fun r => [.addroundkey r, .invmixcolumns, .invshiftrows, .invsubbytes]) ++
      [.addroundkey 0])

/-- The command writes BLK on success (R22). -/
def WritesBlk (i : Instr) : Prop :=
  match i with
  | .encblk | .decblk | .subbytes | .invsubbytes | .shiftrows | .invshiftrows | .mixcolumns | .invmixcolumns
  | .addroundkey _ => True
  | _ => False

/-- The command writes DBUF on success (R22). -/
def WritesDbuf (i : Instr) : Prop :=
  match i with
  | .pkcs7pad | .m2pad | .ecbenc _ | .ecbdec _ | .cbcenc _ | .cbcdec _ => True
  | _ => False

/-- The command writes DLEN on success (R22). -/
def WritesDlen (i : Instr) : Prop :=
  match i with
  | .pkcs7pad | .pkcs7unpad | .m2pad | .m2unpad | .ecbenc _ | .ecbdec _ | .cbcenc _ | .cbcdec _ => True
  | _ => False

/-- The first index and the number of the bytes of DBUF a command stores to (R193, R197, R213, R217, R220, R223). -/
def storedRange (i : Instr) (s : State) : Nat × Nat :=
  match i with
  | .pkcs7pad | .m2pad => (s.dlen, padCount s.dlen s.padbs.toNat)
  | .ecbenc pad | .cbcenc pad => (0, paddedLength s.dlen pad)
  | .ecbdec _ | .cbcdec _ => (0, s.dlen)
  | _ => (0, 0)

/-- The order of the checks of R270 after decoding. -/
def checkOrder : List ErrKind :=
  [.noSchedule, .illegalCommand, .invalidKeyLength, .invalidIVLength, .invalidBlockSize, .invalidInputLength,
    .capacityExceeded, .invalidPadding]

/-- The plaintext ECBDEC computes before it unpads (R217). -/
def ecbPlain (s : State) : List Byte := joinBlocks (ecbDecrypt (sched s) (rounds s) (blocksOf (message s)))

/-- The plaintext CBCDEC computes before it unpads (R223). -/
def cbcPlain (s : State) : List Byte := joinBlocks (cbcDecrypt (sched s) (rounds s) s.iv (blocksOf (message s)))

/-- The command i, run on s, meets the cause of the error kind e (R264, R265, R266, R267, R268). -/
def Violates (i : Instr) (s : State) (e : ErrKind) : Prop :=
  match e with
  | .noSchedule =>
    match i with
    | .encblk | .decblk | .addroundkey _ => s.schedValid = false
    | _ => False
  | .illegalCommand =>
    match i with
    | .addroundkey r => s.nr.toNat < r
    | _ => False
  | .invalidKeyLength =>
    match i with
    | .keyexp | .ecbenc _ | .ecbdec _ | .cbcenc _ | .cbcdec _ | .cmackeys | .cmac => ¬ LegalKeyLen s
    | _ => False
  | .invalidIVLength =>
    match i with
    | .cbcenc _ | .cbcdec _ => s.ivlen ≠ 16
    | _ => False
  | .invalidBlockSize =>
    match i with
    | .pkcs7pad | .m2pad => s.padbs = 0
    | _ => False
  | .invalidInputLength =>
    match i with
    | .ecbenc .none | .cbcenc .none | .ecbdec _ | .cbcdec _ => s.dlen % 16 ≠ 0
    | _ => False
  | .capacityExceeded =>
    match i with
    | .pkcs7unpad | .m2unpad | .ecbenc .none | .cbcenc .none | .ecbdec _ | .cbcdec _ | .cmac => ¬ Fits s s.dlen
    | .ecbenc _ | .cbcenc _ => ¬ Fits s (s.dlen + 16 - s.dlen % 16)
    | .pkcs7pad | .m2pad => ¬ Fits s (s.dlen + (s.padbs.toNat - s.dlen % s.padbs.toNat))
    | _ => False
  | .invalidPadding =>
    match i with
    | .pkcs7unpad => ∀ r, pkcs7Unpad (message s) ≠ .ok r
    | .m2unpad => ∀ r, m2Unpad (message s) ≠ .ok r
    | .ecbdec pad => ∀ r, unpadBy pad (ecbPlain s) ≠ .ok r
    | .cbcdec pad => ∀ r, unpadBy pad (cbcPlain s) ≠ .ok r
    | _ => False

/-- Two states agree on the message: DLEN, the bytes below it, and the capacity. -/
def SameMessage (s s' : State) : Prop :=
  s.dlen = s'.dlen ∧ s.params = s'.params ∧ ∀ a, a < s.dlen → s.dbuf.read a = s'.dbuf.read a

/-- Two states agree on the key a command uses: KEYLEN and KEY[0..KEYLEN). -/
def SameKey (s s' : State) : Prop := s.keylen = s'.keylen ∧ keyBytes s = keyBytes s'

/-- Two states agree on the registers the rule of the command lists as read (R46). -/
def SameOperands (i : Instr) (s s' : State) : Prop :=
  match i with
  | .nop => True
  | .keyexp | .cmackeys => SameKey s s'
  | .encblk | .decblk | .addroundkey _ =>
    s.blk = s'.blk ∧ s.rk = s'.rk ∧ s.nr = s'.nr ∧ s.schedValid = s'.schedValid
  | .subbytes | .invsubbytes | .shiftrows | .invshiftrows | .mixcolumns | .invmixcolumns => s.blk = s'.blk
  | .pkcs7pad | .m2pad => s.padbs = s'.padbs ∧ s.dlen = s'.dlen ∧ s.params = s'.params
  | .pkcs7unpad | .m2unpad => SameMessage s s'
  | .ecbenc _ | .ecbdec _ | .cmac => SameKey s s' ∧ SameMessage s s'
  | .cbcenc _ | .cbcdec _ => SameKey s s' ∧ SameMessage s s' ∧ s.iv = s'.iv ∧ s.ivlen = s'.ivlen

/-- Two outcomes agree on the registers the rule of the command lists as written; s is the state before. -/
def SameResults (i : Instr) (s t t' : State) : Prop :=
  match i with
  | .nop => True
  | .keyexp => t.rk = t'.rk ∧ t.nr = t'.nr ∧ t.schedValid = t'.schedValid
  | .encblk | .decblk | .addroundkey _ | .subbytes | .invsubbytes | .shiftrows | .invshiftrows | .mixcolumns
  | .invmixcolumns => t.blk = t'.blk
  | .pkcs7unpad | .m2unpad => t.dlen = t'.dlen
  | .pkcs7pad | .m2pad | .ecbenc _ | .ecbdec _ | .cbcenc _ | .cbcdec _ =>
    t.dlen = t'.dlen ∧
      ∀ a, (storedRange i s).1 ≤ a → a < (storedRange i s).1 + (storedRange i s).2 → t.dbuf.read a = t'.dbuf.read a
  | .cmackeys => t.k1 = t'.k1 ∧ t.k2 = t'.k2
  | .cmac => t.tag = t'.tag

/-- The value v fits the cell's width, so that a write stores v itself (R42, R66). -/
def FitsCell (p : Config.Params) (r : Reg) (v : Nat) : Prop :=
  match r with
  | .dlen => lengthFits p v = true
  | _ => v < 256

/-- The registers the host cannot write (R43). -/
def ReadOnly (r : Reg) : Prop :=
  match r with
  | .status | .rk | .nr | .k1 | .k2 | .tag => True
  | _ => False

/-- A block as one 128-bit number, byte 0 most significant (R237). -/
def num128 (b : Block) : Nat := b.toList.foldl (fun n x => 256 * n + x.toNat) 0

/-- The blocks CMAC chains (R239): those of the message, complete or padded with 0x80, the last XORed with K1 or K2. -/
def maskedBlocks (key msg : List Byte) : List Block :=
  let complete := 0 < msg.length ∧ msg.length % 16 = 0
  let p := if complete then msg else msg ++ m2Fill (padCount msg.length 16)
  let k := if complete then (cmacSubkeys key).1 else (cmacSubkeys key).2
  (blocksOf p).dropLast ++ [xorBytes ((blocksOf p).getLastD zeroBlock) k]

end Sys2Proof.Claims

open Sys2Proof Sys2Proof.Machine Sys2Proof.Claims

/-! Encoding. -/

/-- Decoding the encoded word of a well-formed command gives the command back, with every operand. -/
def Obligations.DecodeOfEncode : Prop := ∀ i : Instr, i.wellFormed = true → decode (encode i) = .ok i

/-- A word that decodes is the word of a well-formed command: no command has two words. -/
def Obligations.EncodeOfDecode : Prop :=
  ∀ (w : BitVec 16) (i : Instr), decode w = .ok i → i.wellFormed = true ∧ encode i = w

/-- R92: which words are legal, and what every other word does. -/
def Obligations.StrictDecoding : Prop :=
  ∀ w : BitVec 16,
    let op := w.toNat &&& 0xff
    let pad := (w.toNat >>> 8) &&& 3
    let rnd := (w.toNat >>> 10) &&& 15
    let rsv := (w.toNat >>> 14) &&& 3
    let mode := op ∈ [0x30, 0x31, 0x32, 0x33]
    let legal := rsv = 0 ∧
      op ∈ [0x00, 0x01, 0x02, 0x03, 0x10, 0x11, 0x12, 0x13, 0x14, 0x15, 0x16, 0x20, 0x21, 0x22, 0x23, 0x30, 0x31, 0x32,
        0x33, 0x40, 0x41] ∧
      (if mode then pad ≤ 2 else pad = 0) ∧ (op ≠ 0x16 → rnd = 0)
    ((∃ i, decode w = .ok i) ↔ legal) ∧
      ∀ s, ¬ legal → hostCommand w s = .next (State.setErr { s with cmd := w } 6)

/-- R93: every row of the opcode map, with every legal value of its fields. -/
def Obligations.OpcodeMapDecodes : Prop :=
  (∀ row ∈ [((0x0000 : BitVec 16), Instr.nop), (0x0001, .keyexp), (0x0002, .encblk), (0x0003, .decblk),
      (0x0010, .subbytes), (0x0011, .invsubbytes), (0x0012, .shiftrows), (0x0013, .invshiftrows),
      (0x0014, .mixcolumns), (0x0015, .invmixcolumns), (0x0020, .pkcs7pad), (0x0021, .pkcs7unpad),
      (0x0022, .m2pad), (0x0023, .m2unpad), (0x0040, .cmackeys), (0x0041, .cmac),
      (0x0030, .ecbenc .none), (0x0130, .ecbenc .pkcs7), (0x0230, .ecbenc .m2),
      (0x0031, .ecbdec .none), (0x0131, .ecbdec .pkcs7), (0x0231, .ecbdec .m2),
      (0x0032, .cbcenc .none), (0x0132, .cbcenc .pkcs7), (0x0232, .cbcenc .m2),
      (0x0033, .cbcdec .none), (0x0133, .cbcdec .pkcs7), (0x0233, .cbcdec .m2)],
    decode row.1 = .ok row.2) ∧
  ∀ r, r < 16 → decode (BitVec.ofNat 16 (0x0016 + 0x0400 * r)) = .ok (.addroundkey r)

/-- R91: the fields of a word. -/
def Obligations.WordFields : Prop :=
  ∀ w : BitVec 16, fieldOp w = w.toNat &&& 0xff ∧ fieldPad w = (w.toNat >>> 8) &&& 3 ∧
    fieldRnd w = (w.toNat >>> 10) &&& 15 ∧ fieldRsv w = (w.toNat >>> 14) &&& 3

/-! The step and the host. -/

/-- A step whose host operation writes a word to CMD stores it and runs the command it decodes to. -/
def Obligations.StepRunsDecodedCommand : Prop :=
  ∀ (s : State) (rest : List HostOp) (v : Nat) (i : Instr),
    s.pending = .write .cmd 0 v :: rest → decode (BitVec.ofNat 16 v) = .ok i →
      step s = exec i { s with cmd := BitVec.ofNat 16 v, pending := rest, readData := none }

/-- With nothing pending the core is idle. -/
def Obligations.IdleStepChangesNothing : Prop := ∀ s : State, s.pending = [] → step s = .next s

/-- R43: reads, writes of writable registers, writes of CMD, writes of read-only registers. -/
def Obligations.HostAccessRights : Prop :=
  ∀ (s : State) (rest : List HostOp) (r : Reg) (i v : Nat), s.dbuf.wf → cellExists s.params r i = true →
    (s.pending = .read r i :: rest →
      step s = .next { s with pending := rest, readData := some (readCell s r i) }) ∧
    (s.pending = .write r i v :: rest →
      (r = .cmd → step s = runWord (BitVec.ofNat 16 v)
        { s with cmd := BitVec.ofNat 16 v, pending := rest, readData := none }) ∧
      (ReadOnly r → step s = .next { s with pending := rest, readData := none }) ∧
      (r ≠ .cmd → ¬ ReadOnly r → FitsCell s.params r v →
        ∃ t, step s = .next t ∧ readCell t r i = v ∧
          (∀ r' i', cellExists s.params r' i' = true → (r', i') ≠ (r, i) → readCell t r' i' = readCell s r' i') ∧
          t.params = s.params ∧ t.pending = rest))

/-- R66 and R7: a write replaces a scalar whole and discards the bits above its width. -/
def Obligations.ScalarWritesKeepLowBits : Prop :=
  ∀ (s : State) (rest : List HostOp) (v : Nat),
    (s.pending = .write .keylen 0 v :: rest → ∃ t, step s = .next t ∧ t.keylen.toNat = v % 256) ∧
    (s.pending = .write .ivlen 0 v :: rest → ∃ t, step s = .next t ∧ t.ivlen.toNat = v % 256) ∧
    (s.pending = .write .padbs 0 v :: rest → ∃ t, step s = .next t ∧ t.padbs.toNat = v % 256) ∧
    (s.pending = .write .dlen 0 v :: rest →
      ∃ t, step s = .next t ∧ t.dlen = (if s.params.maxLen = none then v else v % 2 ^ s.params.lenW)) ∧
    (s.pending = .write .cmd 0 v :: rest → ∃ t, step s = .next t ∧ t.cmd.toNat = v % 65536)

/-- Accesses that name no cell stop the model (its own choice, log entries 6 and 7). -/
def Obligations.MissingCellsStop : Prop :=
  ∀ (s : State) (rest : List HostOp) (r : Reg) (i v offset size : Nat),
    (cellExists s.params r i = false → s.pending = .read r i :: rest ∨ s.pending = .write r i v :: rest →
      step s = .fault (.noSuchCell r i)) ∧
    (busCell s.params offset size = none →
      s.pending = .busRead offset size :: rest ∨ s.pending = .busWrite offset size v :: rest →
      step s = .refused (.strayBusAccess offset size))

/-- The default BUSMAP names every cell by exactly one offset and width, and a bus access is the named access. That the
4-byte slot of DLEN carries a DLEN wider than 32 bits whole is the model's choice (log entry 14). -/
def Obligations.BusMapNamesEveryCellOnce : Prop :=
  ∀ p : Config.Params,
    (∀ r i, cellExists p r i = true → ∃ offset size, busCell p offset size = some (r, i)) ∧
    (∀ offset size r i, busCell p offset size = some (r, i) → cellExists p r i = true) ∧
    (∀ offset size offset' size' c, busCell p offset size = some c → busCell p offset' size' = some c →
      offset = offset' ∧ size = size') ∧
    ∀ (s : State) (rest : List HostOp) (offset size i v : Nat) (reg : Reg), s.params = p →
      busCell p offset size = some (reg, i) →
      (s.pending = .busRead offset size :: rest → step s = step { s with pending := .read reg i :: rest }) ∧
      (s.pending = .busWrite offset size v :: rest → step s = step { s with pending := .write reg i v :: rest })

/-- R300, R301: after Reset, also one that abandons a command, every cell reads 0; the reset machine is idle. -/
def Obligations.ResetClearsEveryCell : Prop :=
  (∀ (s : State) (rest : List HostOp) (w : Nat),
    s.pending = .reset :: rest ∨ s.pending = .resetDuring w :: rest →
      ∃ t, step s = .next t ∧ (∀ r i, readCell t r i = 0) ∧ t.pending = rest ∧ t.params = s.params) ∧
  (∀ r i, readCell State.reset r i = 0) ∧ step State.reset = .next State.reset

/-! Whole-machine rules. -/

/-- The invariant holds at reset, for every legal value of the parameters. -/
def Obligations.ResetSatisfiesInv : Prop :=
  Inv State.reset ∧ ∀ p : Config.Params, p.legal = true → Inv (State.resetWith p)

/-- Every step keeps the invariant. -/
def Obligations.StepKeepsInv : Prop := ∀ s t : State, Inv s → step s = .next t → Inv t

/-- A host that names existing cells never sees the machine stop. -/
def Obligations.SafeHostNeverStops : Prop := ∀ s : State, SafeHost s → ∃ t, step s = .next t ∧ SafeHost t

/-- R22: a register is changed only by the commands its "written by" column names. -/
def Obligations.OnlyListedCommandsWrite : Prop :=
  ∀ (i : Instr) (s t : State), exec i s = .next t →
    (t.cmd = s.cmd ∧ t.key = s.key ∧ t.keylen = s.keylen ∧ t.iv = s.iv ∧ t.ivlen = s.ivlen ∧ t.padbs = s.padbs) ∧
    (i ≠ .keyexp → t.rk = s.rk ∧ t.nr = s.nr ∧ t.schedValid = s.schedValid) ∧
    (¬ WritesBlk i → t.blk = s.blk) ∧
    (¬ WritesDbuf i → ∀ a, t.dbuf.read a = s.dbuf.read a) ∧
    (¬ WritesDlen i → t.dlen = s.dlen) ∧
    (i ≠ .cmackeys → t.k1 = s.k1 ∧ t.k2 = s.k2) ∧
    (i ≠ .cmac → t.tag = s.tag) ∧
    (t.params = s.params ∧ t.pending = s.pending ∧ t.readData = s.readData ∧
      statusReserved t.status = statusReserved s.status)

/-- R262: a failed command changes nothing but ERR, and CMD keeps the word the host wrote. -/
def Obligations.ErrorChangesOnlyErr : Prop :=
  ∀ (w : BitVec 16) (s t : State), hostCommand w s = .next t →
    t.cmd = w ∧ (t.err ≠ 0 → t = State.setErr { s with cmd := w } t.err) ∧
    ∀ i, decode w = .ok i → exec i { s with cmd := w } = .next t

/-- R270: every command completes and reports the first error of the order whose cause holds, or 0. -/
def Obligations.ReportedErrorIsFirstInOrder : Prop :=
  (∀ (i : Instr) (s : State), ∃ t, exec i s = .next t ∧
    ((∃ (k : Nat) (e : ErrKind), checkOrder[k]? = some e ∧ Violates i s e ∧ t.err = errCode e ∧
        ∀ (j : Nat) (e' : ErrKind), j < k → checkOrder[j]? = some e' → ¬ Violates i s e') ∨
      ((∀ e, ¬ Violates i s e) ∧ t.err = 0))) ∧
  ∀ (w : BitVec 16) (s : State), (∀ i, decode w ≠ .ok i) →
    ∃ t, hostCommand w s = .next t ∧ t.err = errCode .illegalCommand

/-- A command touches no byte of DBUF outside the bytes it stores to, stores only below MAXLEN, and stores nothing when it
fails. -/
def Obligations.StoresStayInRange : Prop :=
  ∀ (i : Instr) (s t : State), exec i s = .next t →
    (∀ a, a < (storedRange i s).1 ∨ (storedRange i s).1 + (storedRange i s).2 ≤ a →
      t.dbuf.read a = s.dbuf.read a) ∧
    (t.err = 0 → WritesDbuf i → Fits s ((storedRange i s).1 + (storedRange i s).2)) ∧
    (t.err ≠ 0 → ∀ a, t.dbuf.read a = s.dbuf.read a)

/-- R46: the result of a command is a function of the registers its rule lists as read. -/
def Obligations.ResultsDependOnlyOnOperands : Prop :=
  ∀ (i : Instr) (s s' t t' : State), s.dbuf.wf → s'.dbuf.wf → SameOperands i s s' →
    exec i s = .next t → exec i s' = .next t' →
      t.err = t'.err ∧ (t.err = 0 → SameResults i s t t')

/-! The field and the tables. -/

/-- R120: both forms of doubling, and the corner cases. -/
def Obligations.XtimeDoubles : Prop :=
  (∀ a : Byte, xtime a = (a <<< 1) ^^^ (if 0x80 ≤ a.toNat then 0x1b else 0x00)) ∧
  (∀ a : Byte, (xtime a).toNat = (if 256 ≤ 2 * a.toNat then (2 * a.toNat) ^^^ 0x11b else 2 * a.toNat) % 256) ∧
  xtime 0x00 = 0x00 ∧ xtime 0x80 = 0x1b ∧ xtime 0xff = 0xe5 ∧ xtime 0x57 = 0xae

/-- R121: the algorithm, the algebra of the field, and the examples. -/
def Obligations.GmulIsFieldMultiplication : Prop :=
  (∀ a b : Byte, gmul a b = ((List.range 8).foldl
    (fun (pa : Byte × Byte) i => (if b.getLsbD i then pa.1 ^^^ pa.2 else pa.1, xtime pa.2)) (0, a)).1) ∧
  (∀ a b : Byte, gmul a b = gmul b a) ∧
  (∀ a b c : Byte, gmul (gmul a b) c = gmul a (gmul b c)) ∧
  (∀ a b c : Byte, gmul a (b ^^^ c) = gmul a b ^^^ gmul a c) ∧
  (∀ a : Byte, gmul a 1 = a ∧ gmul a 0 = 0 ∧ gmul a 2 = xtime a ∧ gmul a 3 = xtime a ^^^ a) ∧
  gmul 0x57 0x13 = 0xfe ∧ gmul 0x57 0x83 = 0xc1

/-- R123: the S-box table is the affine map of the field inverse, a bijection without a fixed point. -/
def Obligations.SboxIsAffineInverse : Prop :=
  (∀ a : Byte, ∃ b : Byte, (if a = 0 then b = 0 else gmul a b = 1) ∧
    sbox a = b ^^^ b.rotateLeft 1 ^^^ b.rotateLeft 2 ^^^ b.rotateLeft 3 ^^^ b.rotateLeft 4 ^^^ 0x63) ∧
  Function.Bijective sbox ∧ (∀ a : Byte, sbox a ≠ a) ∧
  sbox 0x53 = 0xed ∧ sbox 0x00 = 0x63 ∧ sbox 0xff = 0x16

/-- The inverse S-box undoes the S-box, both ways round. -/
def Obligations.InvSboxInvertsSbox : Prop := ∀ a : Byte, invSbox (sbox a) = a ∧ sbox (invSbox a) = a

/-- The six multiplication tables are multiplication by their constants. -/
def Obligations.MulTablesAreGmul : Prop :=
  ∀ a : Byte, mul2 a = gmul a 2 ∧ mul3 a = gmul a 3 ∧ mul9 a = gmul a 9 ∧ mul11 a = gmul a 11 ∧
    mul13 a = gmul a 13 ∧ mul14 a = gmul a 14

/-- R127: the round constants. -/
def Obligations.RoundConstants : Prop :=
  rcon 1 = 0x01 ∧ (∀ j, 1 ≤ j → rcon (j + 1) = xtime (rcon j)) ∧
    [rcon 1, rcon 2, rcon 3, rcon 4, rcon 5, rcon 6, rcon 7, rcon 8, rcon 9, rcon 10] =
      [0x01, 0x02, 0x04, 0x08, 0x10, 0x20, 0x40, 0x80, 0x1b, 0x36]

/-! The key schedule. -/

/-- R140, R141, R142, R144: the length of the schedule and the value of every word of it. -/
def Obligations.KeyExpansionRecurrence : Prop :=
  ∀ key : List Byte, key.length = 16 ∨ key.length = 24 ∨ key.length = 32 →
    let w := (keyExpansion key).1
    let nr := (keyExpansion key).2
    let nk := key.length / 4
    let W := fun i => wordOf w i
    nr = nk + 6 ∧ w.length = 16 * (nr + 1) ∧
    (∀ i, i < key.length → w.getD i 0 = key.getD i 0) ∧
    ∀ i, nk ≤ i → i < 4 * (nr + 1) →
      let t := W (i - 1)
      W i = (W (i - nk)).xor
        (if i % nk = 0 then ⟨sbox t.b1 ^^^ rcon (i / nk), sbox t.b2, sbox t.b3, sbox t.b0⟩
          else if nk = 8 ∧ i % nk = 4 then ⟨sbox t.b0, sbox t.b1, sbox t.b2, sbox t.b3⟩
          else t)

/-- R147, R148: KEYEXP writes the whole schedule, zero-filled, NR and SCHED_VALID; or fails with InvalidKeyLength. -/
def Obligations.KeyexpWritesSchedule : Prop :=
  decode 0x0001 = .ok .keyexp ∧ ∀ s : State,
    (LegalKeyLen s → ∃ t, exec .keyexp s = .next t ∧
      (∀ i, i < 240 → byteAt t.rk i = if i < 16 * (rounds s + 1) then (sched s).getD i 0 else 0) ∧
      t.nr.toNat = rounds s ∧ t.schedValid = true ∧ t.err = 0 ∧
      statusReserved t.status = statusReserved s.status ∧
      t = { s with rk := t.rk, nr := t.nr, status := t.status }) ∧
    (¬ LegalKeyLen s → exec .keyexp s = .next (s.setErr 1))

/-! The block commands. -/

/-- R156, R163, R164: the substitution commands work lane by lane and change only BLK. -/
def Obligations.SubstitutionCommands : Prop :=
  decode 0x0010 = .ok .subbytes ∧ decode 0x0011 = .ok .invsubbytes ∧ ∀ s : State,
    (∃ t, exec .subbytes s = .next t ∧ OnlyBlkAndOk s t ∧ ∀ i, i < 16 → byteAt t.blk i = sbox (byteAt s.blk i)) ∧
    (∃ t, exec .invsubbytes s = .next t ∧ OnlyBlkAndOk s t ∧
      ∀ i, i < 16 → byteAt t.blk i = invSbox (byteAt s.blk i))

/-- R158, R165, R166: row r goes left by r, or right by r. -/
def Obligations.RowShiftCommands : Prop :=
  decode 0x0012 = .ok .shiftrows ∧ decode 0x0013 = .ok .invshiftrows ∧ ∀ s : State,
    (∃ t, exec .shiftrows s = .next t ∧ OnlyBlkAndOk s t ∧
      ∀ r c, r < 4 → c < 4 → byteAt t.blk (r + 4 * c) = byteAt s.blk (r + 4 * ((c + r) % 4))) ∧
    (∃ t, exec .invshiftrows s = .next t ∧ OnlyBlkAndOk s t ∧
      ∀ r c, r < 4 → c < 4 → byteAt t.blk (r + 4 * ((c + r) % 4)) = byteAt s.blk (r + 4 * c))

/-- R160, R167, R168: each column is multiplied by the fixed matrix over GF(2^8). -/
def Obligations.MixColumnCommands : Prop :=
  decode 0x0014 = .ok .mixcolumns ∧ decode 0x0015 = .ok .invmixcolumns ∧ ∀ s : State,
    (∃ t, exec .mixcolumns s = .next t ∧ OnlyBlkAndOk s t ∧
      ∀ r c, r < 4 → c < 4 →
        let a := fun k => byteAt s.blk ((r + k) % 4 + 4 * c)
        byteAt t.blk (r + 4 * c) = gmul (a 0) 2 ^^^ gmul (a 1) 3 ^^^ a 2 ^^^ a 3) ∧
    (∃ t, exec .invmixcolumns s = .next t ∧ OnlyBlkAndOk s t ∧
      ∀ r c, r < 4 → c < 4 →
        let a := fun k => byteAt s.blk ((r + k) % 4 + 4 * c)
        byteAt t.blk (r + 4 * c) = gmul (a 0) 14 ^^^ gmul (a 1) 11 ^^^ gmul (a 2) 13 ^^^ gmul (a 3) 9)

/-- R170: ADDROUNDKEY XORs round key r; NoSchedule first, then IllegalCommand for r above NR. -/
def Obligations.AddRoundKeyCommand : Prop :=
  (∀ r, r < 16 → decode (BitVec.ofNat 16 (0x0016 + 1024 * r)) = .ok (.addroundkey r)) ∧ ∀ (s : State) (r : Nat),
    (s.schedValid = true → r ≤ s.nr.toNat → ∃ t, exec (.addroundkey r) s = .next t ∧ OnlyBlkAndOk s t ∧
      ∀ i, i < 16 → byteAt t.blk i = byteAt s.blk i ^^^ byteAt s.rk (16 * r + i)) ∧
    (s.schedValid = false → exec (.addroundkey r) s = .next (s.setErr 7)) ∧
    (s.schedValid = true → s.nr.toNat < r → exec (.addroundkey r) s = .next (s.setErr 6))

/-- R172, R174: the block commands run the cipher or the inverse cipher on BLK under RK and NR. -/
def Obligations.BlockCommands : Prop :=
  decode 0x0002 = .ok .encblk ∧ decode 0x0003 = .ok .decblk ∧ ∀ s : State,
    (s.schedValid = true →
      (∃ t, exec .encblk s = .next t ∧ OnlyBlkAndOk s t ∧
        t.blk = encryptBlock s.blk (s.rk.toList.take (16 * (s.nr.toNat + 1))) s.nr.toNat) ∧
      (∃ t, exec .decblk s = .next t ∧ OnlyBlkAndOk s t ∧
        t.blk = decryptBlock s.blk (s.rk.toList.take (16 * (s.nr.toNat + 1))) s.nr.toNat)) ∧
    (s.schedValid = false → exec .encblk s = .next (s.setErr 7) ∧ exec .decblk s = .next (s.setErr 7))

/-- R171, R173, R178: ENCBLK is the step commands in the cipher's order, DECBLK those in the inverse order. -/
def Obligations.BlockCommandsAreStepCommands : Prop :=
  ∀ s : State, s.schedValid = true → s.nr = 10 ∨ s.nr = 12 ∨ s.nr = 14 →
    runCommands (cipherSteps s.nr.toNat) s = exec .encblk s ∧
    runCommands (inverseSteps s.nr.toNat) s = exec .decblk s

/-- Each round step and its inverse undo each other, both ways round. -/
def Obligations.RoundStepsInvert : Prop :=
  ∀ b : Block,
    (invSubBytes (subBytes b) = b ∧ subBytes (invSubBytes b) = b) ∧
    (invShiftRows (shiftRows b) = b ∧ shiftRows (invShiftRows b) = b) ∧
    (invMixColumns (mixColumns b) = b ∧ mixColumns (invMixColumns b) = b) ∧
    ∀ w r, addRoundKey (addRoundKey b w r) w r = b

/-- R175: decryption undoes encryption and encryption undoes decryption, as functions and as commands. -/
def Obligations.DecryptionInvertsEncryption : Prop :=
  (∀ (b : Block) (w : List Byte) (nr : Nat),
    decryptBlock (encryptBlock b w nr) w nr = b ∧ encryptBlock (decryptBlock b w nr) w nr = b) ∧
  ∀ s : State, s.schedValid = true →
    (∃ t u, exec .encblk s = .next t ∧ exec .decblk t = .next u ∧ u.blk = s.blk) ∧
    (∃ t u, exec .decblk s = .next t ∧ exec .encblk t = .next u ∧ u.blk = s.blk)

/-- R255: NOP clears ERR and changes nothing else. -/
def Obligations.NopClearsErr : Prop :=
  decode 0x0000 = .ok .nop ∧ ∀ s : State, ∃ t, exec .nop s = .next t ∧ t.err = 0 ∧ t.schedValid = s.schedValid ∧
    statusReserved t.status = statusReserved s.status ∧ t = { s with status := t.status }

/-! Padding. -/

/-- R193: PKCS7PAD appends n bytes equal to n; its errors in their order. -/
def Obligations.Pkcs7padAppends : Prop :=
  decode 0x0020 = .ok .pkcs7pad ∧ ∀ s : State, s.dbuf.wf →
    let n := s.padbs.toNat - s.dlen % s.padbs.toNat
    (s.padbs ≠ 0 → Fits s (s.dlen + n) → ∃ t, exec .pkcs7pad s = .next t ∧ OnlyBufferAndOk s t ∧
      t.dlen = s.dlen + n ∧
      (∀ a, s.dlen ≤ a → a < s.dlen + n → (t.dbuf.read a).toNat = n) ∧
      (∀ a, a < s.dlen ∨ s.dlen + n ≤ a → t.dbuf.read a = s.dbuf.read a)) ∧
    (s.padbs = 0 → exec .pkcs7pad s = .next (s.setErr 4)) ∧
    (s.padbs ≠ 0 → ¬ Fits s (s.dlen + n) → exec .pkcs7pad s = .next (s.setErr 8))

/-- R197: M2PAD appends 0x80 and zero bytes; its errors in their order. -/
def Obligations.M2padAppends : Prop :=
  decode 0x0022 = .ok .m2pad ∧ ∀ s : State, s.dbuf.wf →
    let n := s.padbs.toNat - s.dlen % s.padbs.toNat
    (s.padbs ≠ 0 → Fits s (s.dlen + n) → ∃ t, exec .m2pad s = .next t ∧ OnlyBufferAndOk s t ∧
      t.dlen = s.dlen + n ∧
      t.dbuf.read s.dlen = 0x80 ∧
      (∀ a, s.dlen < a → a < s.dlen + n → t.dbuf.read a = 0x00) ∧
      (∀ a, a < s.dlen ∨ s.dlen + n ≤ a → t.dbuf.read a = s.dbuf.read a)) ∧
    (s.padbs = 0 → exec .m2pad s = .next (s.setErr 4)) ∧
    (s.padbs ≠ 0 → ¬ Fits s (s.dlen + n) → exec .m2pad s = .next (s.setErr 8))

/-- R191, R195: PKCS7UNPAD cuts DLEN by n when the last n bytes all equal n, and fails otherwise. -/
def Obligations.Pkcs7unpadChecksEveryByte : Prop :=
  decode 0x0021 = .ok .pkcs7unpad ∧ ∀ s : State,
    (∀ n, Fits s s.dlen → 1 ≤ n → n ≤ s.dlen →
      (∀ a, s.dlen - n ≤ a → a < s.dlen → (s.dbuf.read a).toNat = n) →
      ∃ t, exec .pkcs7unpad s = .next t ∧ OnlyBufferAndOk s t ∧ t.dlen = s.dlen - n ∧ t.dbuf = s.dbuf) ∧
    (Fits s s.dlen →
      (∀ n, 1 ≤ n → n ≤ s.dlen → ∃ a, s.dlen - n ≤ a ∧ a < s.dlen ∧ (s.dbuf.read a).toNat ≠ n) →
      exec .pkcs7unpad s = .next (s.setErr 5)) ∧
    (¬ Fits s s.dlen → exec .pkcs7unpad s = .next (s.setErr 8))

/-- R194, R199: M2UNPAD cuts the message before the last byte that is not zero if it is 0x80, and fails otherwise. -/
def Obligations.M2unpadScansBack : Prop :=
  decode 0x0023 = .ok .m2unpad ∧ ∀ s : State,
    (∀ i, Fits s s.dlen → i < s.dlen → s.dbuf.read i = 0x80 →
      (∀ a, i < a → a < s.dlen → s.dbuf.read a = 0x00) →
      ∃ t, exec .m2unpad s = .next t ∧ OnlyBufferAndOk s t ∧ t.dlen = i ∧ t.dbuf = s.dbuf) ∧
    (Fits s s.dlen →
      (∀ i, i < s.dlen → s.dbuf.read i = 0x80 → ∃ a, i < a ∧ a < s.dlen ∧ s.dbuf.read a ≠ 0x00) →
      exec .m2unpad s = .next (s.setErr 5)) ∧
    (¬ Fits s s.dlen → exec .m2unpad s = .next (s.setErr 8))

/-- R190, R192, R196: both paddings reach the next multiple of the block size, and unpadding removes them exactly. -/
def Obligations.UnpaddingInvertsPadding : Prop :=
  ∀ (m : List Byte) (bs : Nat), 1 ≤ bs → bs ≤ 255 →
    (∃ p, pkcs7Pad m bs = .ok p ∧ pkcs7Unpad p = .ok m ∧ p.length % bs = 0 ∧ m.length < p.length ∧
      p.length ≤ m.length + bs) ∧
    (∃ p, m2Pad m bs = .ok p ∧ m2Unpad p = .ok m ∧ p.length % bs = 0 ∧ m.length < p.length ∧
      p.length ≤ m.length + bs)

/-! Modes. -/

/-- R213: ECBENC encrypts each block of the padded message on its own; its errors in their order. -/
def Obligations.EcbencEncryptsEachBlock : Prop :=
  (∀ pad, decode (BitVec.ofNat 16 (0x0030 + 256 * padCode pad)) = .ok (.ecbenc pad)) ∧
  ∀ (pad : PadScheme) (s : State) (p : List Byte), s.dbuf.wf → IsPadded pad (message s) p →
    (LegalKeyLen s → (pad = .none → s.dlen % 16 = 0) → Fits s p.length →
      ∃ t, exec (.ecbenc pad) s = .next t ∧ OnlyBufferAndOk s t ∧ t.dlen = p.length ∧
        (∀ j, j < p.length / 16 →
          blockOf (message t) j = encryptBlock (blockOf p j) (sched s) (rounds s)) ∧
        (∀ a, p.length ≤ a → t.dbuf.read a = s.dbuf.read a)) ∧
    (pad ≠ .none → p.length = s.dlen + 16 - s.dlen % 16) ∧
    (¬ LegalKeyLen s → exec (.ecbenc pad) s = .next (s.setErr 1)) ∧
    (LegalKeyLen s → pad = .none → s.dlen % 16 ≠ 0 → exec (.ecbenc pad) s = .next (s.setErr 3)) ∧
    (LegalKeyLen s → (pad = .none → s.dlen % 16 = 0) → ¬ Fits s p.length →
      exec (.ecbenc pad) s = .next (s.setErr 8))

/-- R217: ECBDEC decrypts each block, then unpads; nothing is written if the padding is invalid. -/
def Obligations.EcbdecDecryptsEachBlock : Prop :=
  (∀ pad, decode (BitVec.ofNat 16 (0x0031 + 256 * padCode pad)) = .ok (.ecbdec pad)) ∧
  ∀ (pad : PadScheme) (s : State) (p : List Byte), s.dbuf.wf →
    (∀ r, LegalKeyLen s → s.dlen % 16 = 0 → Fits s s.dlen → IsEcbPlain s p → unpadBy pad p = .ok r →
      ∃ t, exec (.ecbdec pad) s = .next t ∧ OnlyBufferAndOk s t ∧ t.dlen = r.length ∧
        (∀ a, a < s.dlen → t.dbuf.read a = p.getD a 0) ∧
        (∀ a, s.dlen ≤ a → t.dbuf.read a = s.dbuf.read a)) ∧
    (∀ e, LegalKeyLen s → s.dlen % 16 = 0 → Fits s s.dlen → IsEcbPlain s p → unpadBy pad p = .error e →
      exec (.ecbdec pad) s = .next (s.setErr 5)) ∧
    (¬ LegalKeyLen s → exec (.ecbdec pad) s = .next (s.setErr 1)) ∧
    (LegalKeyLen s → s.dlen % 16 ≠ 0 → exec (.ecbdec pad) s = .next (s.setErr 3)) ∧
    (LegalKeyLen s → s.dlen % 16 = 0 → ¬ Fits s s.dlen → exec (.ecbdec pad) s = .next (s.setErr 8))

/-- R220: CBCENC XORs each block with the ciphertext block before it (the IV for the first) and encrypts. -/
def Obligations.CbcencChains : Prop :=
  (∀ pad, decode (BitVec.ofNat 16 (0x0032 + 256 * padCode pad)) = .ok (.cbcenc pad)) ∧
  ∀ (pad : PadScheme) (s : State) (p : List Byte), s.dbuf.wf → IsPadded pad (message s) p →
    (LegalKeyLen s → s.ivlen = 16 → (pad = .none → s.dlen % 16 = 0) → Fits s p.length →
      ∃ t, exec (.cbcenc pad) s = .next t ∧ OnlyBufferAndOk s t ∧ t.dlen = p.length ∧
        (∀ j, j < p.length / 16 →
          blockOf (message t) j =
            encryptBlock (xorBytes (blockOf p j) (chainValue s.iv (message t) j)) (sched s) (rounds s)) ∧
        (∀ a, p.length ≤ a → t.dbuf.read a = s.dbuf.read a)) ∧
    (¬ LegalKeyLen s → exec (.cbcenc pad) s = .next (s.setErr 1)) ∧
    (LegalKeyLen s → s.ivlen ≠ 16 → exec (.cbcenc pad) s = .next (s.setErr 2)) ∧
    (LegalKeyLen s → s.ivlen = 16 → pad = .none → s.dlen % 16 ≠ 0 →
      exec (.cbcenc pad) s = .next (s.setErr 3)) ∧
    (LegalKeyLen s → s.ivlen = 16 → (pad = .none → s.dlen % 16 = 0) → ¬ Fits s p.length →
      exec (.cbcenc pad) s = .next (s.setErr 8))

/-- R223: CBCDEC decrypts each block and XORs it with the ciphertext block before it, then unpads. -/
def Obligations.CbcdecChains : Prop :=
  (∀ pad, decode (BitVec.ofNat 16 (0x0033 + 256 * padCode pad)) = .ok (.cbcdec pad)) ∧
  ∀ (pad : PadScheme) (s : State) (p : List Byte), s.dbuf.wf →
    (∀ r, LegalKeyLen s → s.ivlen = 16 → s.dlen % 16 = 0 → Fits s s.dlen → IsCbcPlain s p →
      unpadBy pad p = .ok r →
      ∃ t, exec (.cbcdec pad) s = .next t ∧ OnlyBufferAndOk s t ∧ t.dlen = r.length ∧
        (∀ a, a < s.dlen → t.dbuf.read a = p.getD a 0) ∧
        (∀ a, s.dlen ≤ a → t.dbuf.read a = s.dbuf.read a)) ∧
    (∀ e, LegalKeyLen s → s.ivlen = 16 → s.dlen % 16 = 0 → Fits s s.dlen → IsCbcPlain s p →
      unpadBy pad p = .error e → exec (.cbcdec pad) s = .next (s.setErr 5)) ∧
    (¬ LegalKeyLen s → exec (.cbcdec pad) s = .next (s.setErr 1)) ∧
    (LegalKeyLen s → s.ivlen ≠ 16 → exec (.cbcdec pad) s = .next (s.setErr 2)) ∧
    (LegalKeyLen s → s.ivlen = 16 → s.dlen % 16 ≠ 0 → exec (.cbcdec pad) s = .next (s.setErr 3)) ∧
    (LegalKeyLen s → s.ivlen = 16 → s.dlen % 16 = 0 → ¬ Fits s s.dlen →
      exec (.cbcdec pad) s = .next (s.setErr 8))

/-- R225 for ECB: decrypting what was encrypted under the same key and scheme gives the message back. -/
def Obligations.EcbRoundTrip : Prop :=
  ∀ (pad : PadScheme) (s : State), s.dbuf.wf → LegalKeyLen s → (pad = .none → s.dlen % 16 = 0) →
    Fits s (paddedLength s.dlen pad) →
    ∃ t u, exec (.ecbenc pad) s = .next t ∧ exec (.ecbdec pad) t = .next u ∧ u.err = 0 ∧ u.dlen = s.dlen ∧
      ∀ a, a < s.dlen → u.dbuf.read a = s.dbuf.read a

/-- R225 for CBC: decrypting what was encrypted under the same key, IV and scheme gives the message back. -/
def Obligations.CbcRoundTrip : Prop :=
  ∀ (pad : PadScheme) (s : State), s.dbuf.wf → LegalKeyLen s → s.ivlen = 16 →
    (pad = .none → s.dlen % 16 = 0) → Fits s (paddedLength s.dlen pad) →
    ∃ t u, exec (.cbcenc pad) s = .next t ∧ exec (.cbcdec pad) t = .next u ∧ u.err = 0 ∧ u.dlen = s.dlen ∧
      ∀ a, a < s.dlen → u.dbuf.read a = s.dbuf.read a

/-! CMAC. -/

/-- Dbl doubles the block as one 128-bit number, byte 0 most significant, reduced by 0x87. -/
def Obligations.DblDoubles128Bits : Prop :=
  ∀ b : Block, num128 (dbl b) =
    if num128 b < 2 ^ 127 then 2 * num128 b else (2 * num128 b - 2 ^ 128) ^^^ 0x87

/-- R236, R238, R240: CMACKEYS writes K1 = Dbl(L), K2 = Dbl(K1), or fails with InvalidKeyLength. -/
def Obligations.CmackeysWritesSubkeys : Prop :=
  decode 0x0040 = .ok .cmackeys ∧ ∀ s : State,
    (LegalKeyLen s → ∃ t, exec .cmackeys s = .next t ∧
      t.k1 = dbl (encryptBlock (Vector.replicate 16 0) (sched s) (rounds s)) ∧ t.k2 = dbl t.k1 ∧ t.err = 0 ∧
      t.schedValid = s.schedValid ∧ statusReserved t.status = statusReserved s.status ∧
      t = { s with k1 := t.k1, k2 := t.k2, status := t.status }) ∧
    (¬ LegalKeyLen s → exec .cmackeys s = .next (s.setErr 1))

/-- R243: CMAC writes TAG and nothing else; its errors in their order. -/
def Obligations.CmacWritesTag : Prop :=
  decode 0x0041 = .ok .cmac ∧ ∀ s : State,
    (LegalKeyLen s → Fits s s.dlen → ∃ t, exec .cmac s = .next t ∧
      t.tag = cmacTag (message s) (s.key.toList.take s.keylen.toNat) ∧ t.err = 0 ∧
      t.schedValid = s.schedValid ∧ statusReserved t.status = statusReserved s.status ∧
      t = { s with tag := t.tag, status := t.status }) ∧
    (¬ LegalKeyLen s → exec .cmac s = .next (s.setErr 1)) ∧
    (LegalKeyLen s → ¬ Fits s s.dlen → exec .cmac s = .next (s.setErr 8))

/-- R239: the tag is the last block of the CBC chain, from zero, over the message with its last block masked. -/
def Obligations.CmacIsMaskedCbc : Prop :=
  ∀ msg key : List Byte,
    cmacTag msg key =
      (cbcEncrypt (keyExpansion key).1 (keyExpansion key).2 zeroBlock (maskedBlocks key msg)).getLastD zeroBlock
end

