-- ==== Sys2Proof/Laws/Bytes.lean ====
section
/-! SUPPORT. Byte registers: reading each byte of what an operation builds, and equality byte by byte. -/

namespace Sys2Proof.Machine

theorem toList_length {n : Nat} (v : Vector Byte n) : v.toList.length = n := by simp

theorem byteAt_eq_getElem {n : Nat} (v : Vector Byte n) {i : Nat} (h : i < n) : byteAt v i = v[i] := by
  simp [byteAt, h]

@[simp] theorem byteAt_tabulate (n : Nat) (f : Nat → Byte) {i : Nat} (h : i < n) : byteAt (tabulate n f) i = f i := by
  simp [byteAt, tabulate, Vector.toList, List.getD, h]

@[simp] theorem byteAt_ofBytes (n : Nat) (l : List Byte) {i : Nat} (h : i < n) : byteAt (ofBytes n l) i = l.getD i 0 := by
  simp [ofBytes, h]

theorem byteAt_mapBytes {n : Nat} (f : Byte → Byte) (v : Vector Byte n) {i : Nat} (h : i < n) :
    byteAt (mapBytes f v) i = f (byteAt v i) := by
  simp [byteAt, mapBytes, Vector.toList, List.getD, h]

theorem byteAt_xorBytes {n : Nat} (v w : Vector Byte n) {i : Nat} (h : i < n) :
    byteAt (xorBytes v w) i = byteAt v i ^^^ byteAt w i := by
  simp [byteAt, xorBytes, Vector.toList, List.getD, h]

theorem byteAt_setByteAt {n : Nat} (v : Vector Byte n) (i j : Nat) (b : Byte) (h : i < n) :
    byteAt (setByteAt v i b) j = if j = i then b else byteAt v j := by
  by_cases hj : j = i
  · subst hj; simp [byteAt, setByteAt, Vector.toList, List.getD, h]
  · simp [byteAt, setByteAt, Vector.toList, List.getD, hj, Ne.symm hj]

@[simp] theorem byteAt_replicate (n i : Nat) : byteAt (Vector.replicate n (0 : Byte)) i = 0 := by
  simp only [byteAt, Vector.toList_replicate, List.getD_eq_getElem?_getD, List.getElem?_replicate]
  split <;> rfl

/-- Two byte values of one size are equal when every byte is. -/
theorem bytes_ext {n : Nat} {v w : Vector Byte n} (h : ∀ i, i < n → byteAt v i = byteAt w i) : v = w := by
  apply Vector.ext
  intro i hi
  simpa [byteAt_eq_getElem, hi] using h i hi

/-- A byte value is the value of its own bytes. -/
theorem ofBytes_toList {n : Nat} (v : Vector Byte n) : ofBytes n v.toList = v :=
  bytes_ext (fun i hi => by rw [byteAt_ofBytes _ _ hi]; rfl)

theorem xorBytes_comm {n : Nat} (v w : Vector Byte n) : xorBytes v w = xorBytes w v :=
  bytes_ext (fun i hi => by simp only [byteAt_xorBytes _ _ hi, BitVec.xor_comm])

theorem xorBytes_cancel {n : Nat} (v w : Vector Byte n) : xorBytes (xorBytes v w) w = v :=
  bytes_ext (fun i hi => by simp only [byteAt_xorBytes _ _ hi, BitVec.xor_assoc, BitVec.xor_self, BitVec.xor_zero])

@[simp] theorem joinBlocks_length (bs : List Block) : (joinBlocks bs).length = 16 * bs.length := by
  induction bs with
  | nil => rfl
  | cons b rest ih => simp only [joinBlocks, List.flatMap_cons, List.length_append, toList_length, List.length_cons] at *; omega

@[simp] theorem blocksOf_length (p : List Byte) : (blocksOf p).length = p.length / 16 := by simp [blocksOf]

theorem getD_joinBlocks (bs : List Block) {j k : Nat} (hj : j < bs.length) (hk : k < 16) :
    (joinBlocks bs).getD (16 * j + k) 0 = byteAt (bs.getD j zeroBlock) k := by
  induction bs generalizing j with
  | nil => simp at hj
  | cons b rest ih =>
    cases j with
    | zero =>
      simp only [joinBlocks, List.flatMap_cons, List.getD_eq_getElem?_getD]
      rw [List.getElem?_append_left (by simp; omega)]
      simp [byteAt]
    | succ j =>
      have hj' : j < rest.length := by simpa using hj
      have hge : b.toList.length ≤ 16 * (j + 1) + k := by simp; omega
      have hsub : 16 * (j + 1) + k - b.toList.length = 16 * j + k := by simp; omega
      have := ih hj'
      simp only [joinBlocks, List.flatMap_cons, List.getD_eq_getElem?_getD] at *
      rw [List.getElem?_append_right hge, hsub, this]
      simp

/-- Cutting a joined message gives its blocks back. -/
theorem blockOf_joinBlocks (bs : List Block) {j : Nat} (hj : j < bs.length) :
    blockOf (joinBlocks bs) j = bs.getD j zeroBlock :=
  bytes_ext (fun k hk => by rw [blockOf, byteAt_tabulate _ _ hk, getD_joinBlocks bs hj hk])

theorem blocksOf_joinBlocks (bs : List Block) : blocksOf (joinBlocks bs) = bs := by
  apply List.ext_getElem
  · simp
  · intro j h1 h2
    simp only [blocksOf, List.getElem_map, List.getElem_range]
    rw [blockOf_joinBlocks bs h2]
    simp [h2]

/-- Joining the blocks of a message of whole blocks gives the message back. -/
theorem joinBlocks_blocksOf (p : List Byte) (h : p.length % 16 = 0) : joinBlocks (blocksOf p) = p := by
  apply List.ext_getElem
  · simp; omega
  · intro i h1 h2
    have hq : i / 16 < (blocksOf p).length := by simp; omega
    have hk : i % 16 < 16 := Nat.mod_lt _ (by decide)
    have hi : 16 * (i / 16) + i % 16 = i := by omega
    have := getD_joinBlocks (blocksOf p) hq hk
    rw [hi] at this
    simp only [List.getD_eq_getElem?_getD, List.getElem?_eq_getElem h1, Option.getD_some] at this
    rw [this, List.getElem?_eq_getElem hq]
    simp [blocksOf, blockOf, byteAt_tabulate _ _ hk, hi, h2]

end Sys2Proof.Machine
end

