-- ==== Sys2Proof/Laws/Field.lean ====
section
/-! SUPPORT. Doubling, and with it every constant multiplication, is linear over exclusive-or. -/

namespace Sys2Proof.Machine

/-- Exclusive-or of four, regrouped. -/
theorem xor_regroup (a b c d : Byte) : (a ^^^ b) ^^^ (c ^^^ d) = (a ^^^ c) ^^^ (b ^^^ d) := by
  rw [BitVec.xor_assoc, BitVec.xor_assoc, ← BitVec.xor_assoc b c d, BitVec.xor_comm b c, BitVec.xor_assoc c b d]

/-- Doubling is linear. -/
theorem xtime_xor (a b : Byte) : xtime (a ^^^ b) = xtime a ^^^ xtime b := by
  have shift : ∀ c : Byte, xtime c = (c <<< 1) ^^^ (if c.msb then 0x1b else 0x00) := by decide +kernel
  have reduce : ∀ p q : Bool, (if (p ^^ q) then 0x1b else 0x00 : Byte) =
      (if p then 0x1b else 0x00) ^^^ (if q then 0x1b else 0x00) := by decide
  rw [shift, shift, shift, BitVec.msb_xor, BitVec.shiftLeft_xor_distrib, reduce]
  exact xor_regroup _ _ _ _

theorem xtime_zero : xtime 0 = 0 := by decide

theorem mul2_xor (a b : Byte) : mul2 (a ^^^ b) = mul2 a ^^^ mul2 b := xtime_xor a b

theorem mul3_xor (a b : Byte) : mul3 (a ^^^ b) = mul3 a ^^^ mul3 b := by
  simp only [mul3, xtime_xor]; exact xor_regroup _ _ _ _

theorem mul9_xor (a b : Byte) : mul9 (a ^^^ b) = mul9 a ^^^ mul9 b := by
  simp only [mul9, xtime_xor]; exact xor_regroup _ _ _ _

theorem mul11_xor (a b : Byte) : mul11 (a ^^^ b) = mul11 a ^^^ mul11 b := by
  simp only [mul11, xtime_xor]; rw [xor_regroup (xtime (xtime (xtime a))), xor_regroup]

theorem mul13_xor (a b : Byte) : mul13 (a ^^^ b) = mul13 a ^^^ mul13 b := by
  simp only [mul13, xtime_xor]; rw [xor_regroup (xtime (xtime (xtime a))), xor_regroup]

theorem mul14_xor (a b : Byte) : mul14 (a ^^^ b) = mul14 a ^^^ mul14 b := by
  simp only [mul14, xtime_xor]; rw [xor_regroup (xtime (xtime (xtime a))), xor_regroup]

end Sys2Proof.Machine
end

