-- ==== Sys2Proof/Laws/Memory.lean ====
section
/-! SUPPORT. DBUF: read after write, the canonical form kept by every operation, and the bounds of what is listed. -/

namespace Sys2Proof.Machine

theorem read_write_other (m : Memory) {a x : Nat} (b : Byte) (h : x ≠ a) : (m.write a b).read x = m.read x := by
  induction m with
  | nil =>
    unfold Memory.write
    split
    · rfl
    · simp [Memory.read, Ne.symm h]
  | cons c rest ih =>
    unfold Memory.write
    split
    · simp only [Memory.read, ih]
    · split
      · next hc =>
        have hx : ¬ c.1 = x := fun e => h (e ▸ hc)
        split
        · simp [Memory.read, hx]
        · simp [Memory.read, hx, Ne.symm h]
      · split
        · rfl
        · simp [Memory.read, Ne.symm h]

/-- Below the first listed address nothing is listed. -/
theorem read_of_all_above (m : Memory) (a : Nat) (h : ∀ c ∈ m, a < c.1) : m.read a = Memory.unlisted := by
  induction m with
  | nil => rfl
  | cons c rest ih =>
    have hc := h c (by simp)
    simp only [Memory.read, Nat.ne_of_gt hc, if_false]
    exact ih (fun d hd => h d (by simp [hd]))

theorem read_write_same (m : Memory) (hw : m.wf) (a : Nat) (b : Byte) : (m.write a b).read a = b := by
  induction m with
  | nil =>
    unfold Memory.write
    split
    · next hb => simp [Memory.read, hb]
    · simp [Memory.read]
  | cons c rest ih =>
    obtain ⟨hs, hn⟩ := hw
    rw [List.pairwise_cons] at hs
    have hrest : Memory.wf rest := ⟨hs.2, fun d hd => hn d (by simp [hd])⟩
    unfold Memory.write
    split
    · next hlt => simp [Memory.read, Nat.ne_of_lt hlt, ih hrest]
    · next hge =>
      split
      · next heq =>
        split
        · next hb => rw [read_of_all_above rest a (fun d hd => heq ▸ hs.1 d hd), hb]
        · simp [Memory.read]
      · next hne =>
        have hgt : a < c.1 := by omega
        split
        · next hb =>
          rw [read_of_all_above (c :: rest) a, hb]
          intro d hd
          rcases List.mem_cons.mp hd with rfl | hd
          · exact hgt
          · exact Nat.lt_trans hgt (hs.1 d hd)
        · simp [Memory.read]

/-- What is listed after a write was listed before, or is the written byte. -/
theorem mem_write {m : Memory} {a : Nat} {b : Byte} {c : Host.Cell} (h : c ∈ m.write a b) :
    c ∈ m ∨ (c = (a, b) ∧ b ≠ Memory.unlisted) := by
  induction m with
  | nil =>
    unfold Memory.write at h
    split at h
    · simp at h
    · next hb => exact .inr ⟨by simpa using h, hb⟩
  | cons d rest ih =>
    unfold Memory.write at h
    split at h
    · rcases List.mem_cons.mp h with rfl | h
      · exact .inl (by simp)
      · rcases ih h with h | h
        · exact .inl (by simp [h])
        · exact .inr h
    · split at h
      · split at h
        · exact .inl (by simp [h])
        · next hb =>
          rcases List.mem_cons.mp h with rfl | h
          · exact .inr ⟨rfl, hb⟩
          · exact .inl (by simp [h])
      · split at h
        · exact .inl h
        · next hb =>
          rcases List.mem_cons.mp h with rfl | h
          · exact .inr ⟨rfl, hb⟩
          · exact .inl h

/-- A write keeps the canonical form. -/
theorem write_wf {m : Memory} (hw : m.wf) (a : Nat) (b : Byte) : (m.write a b).wf := by
  refine ⟨?_, fun c hc => ?_⟩
  · induction m with
    | nil => unfold Memory.write; split <;> simp
    | cons c rest ih =>
      obtain ⟨hs, hn⟩ := hw
      rw [List.pairwise_cons] at hs
      have hrest : Memory.wf rest := ⟨hs.2, fun d hd => hn d (by simp [hd])⟩
      unfold Memory.write
      split
      · next hlt =>
        rw [List.pairwise_cons]
        refine ⟨fun d hd => ?_, ih hrest⟩
        rcases mem_write hd with hd | ⟨rfl, -⟩
        · exact hs.1 d hd
        · exact hlt
      · split
        · next heq =>
          split
          · exact hs.2
          · exact List.pairwise_cons.mpr ⟨fun d hd => heq ▸ hs.1 d hd, hs.2⟩
        · have hgt : a < c.1 := by omega
          split
          · exact List.pairwise_cons.mpr hs
          · refine List.pairwise_cons.mpr ⟨fun d hd => ?_, List.pairwise_cons.mpr hs⟩
            rcases List.mem_cons.mp hd with rfl | hd
            · exact hgt
            · exact Nat.lt_trans hgt (hs.1 d hd)
  · rcases mem_write hc with h | ⟨rfl, hb⟩
    · exact hw.2 c h
    · exact hb

theorem writeBytes_wf {m : Memory} (hw : m.wf) (a : Nat) (l : List Byte) : (m.writeBytes a l).wf := by
  induction l generalizing m a with
  | nil => exact hw
  | cons b rest ih => exact ih (write_wf hw a b) (a + 1)

/-- What is listed after MemWrite was listed before or lies in the written range. -/
theorem mem_writeBytes {m : Memory} {a : Nat} {l : List Byte} {c : Host.Cell} (h : c ∈ m.writeBytes a l) :
    c ∈ m ∨ (a ≤ c.1 ∧ c.1 < a + l.length) := by
  induction l generalizing m a with
  | nil => exact .inl h
  | cons b rest ih =>
    rcases ih h with h | ⟨h1, h2⟩
    · rcases mem_write h with h | ⟨rfl, -⟩
      · exact .inl h
      · exact .inr ⟨Nat.le_refl _, by simp⟩
    · exact .inr ⟨by omega, by simp; omega⟩

/-- MemWrite leaves every byte outside its range alone. -/
theorem read_writeBytes_outside (m : Memory) (a : Nat) (l : List Byte) {x : Nat} (h : x < a ∨ a + l.length ≤ x) :
    (m.writeBytes a l).read x = m.read x := by
  induction l generalizing m a with
  | nil => rfl
  | cons b rest ih =>
    simp only [List.length_cons] at h
    rw [Memory.writeBytes, ih _ _ (by omega), read_write_other _ _ (by omega)]

/-- A byte MemWrite wrote reads as written. -/
theorem read_writeBytes_inside (m : Memory) (hw : m.wf) (a : Nat) (l : List Byte) {k : Nat} (h : k < l.length) :
    (m.writeBytes a l).read (a + k) = l.getD k 0 := by
  induction l generalizing m a k with
  | nil => simp at h
  | cons b rest ih =>
    cases k with
    | zero =>
      rw [Memory.writeBytes, read_writeBytes_outside _ _ _ (by omega)]
      exact read_write_same m hw a b
    | succ k =>
      have hk : k < rest.length := by simpa using h
      have := ih (m.write a b) (write_wf hw a b) (a + 1) hk
      rw [Memory.writeBytes, show a + (k + 1) = a + 1 + k by omega, this]
      simp

@[simp] theorem readBytes_length (m : Memory) (a n : Nat) : (m.readBytes a n).length = n := by simp [Memory.readBytes]

theorem getD_readBytes (m : Memory) (a : Nat) {n k : Nat} (h : k < n) : (m.readBytes a n).getD k 0 = m.read (a + k) := by
  simp [Memory.readBytes, h]

/-- Reading back what MemWrite wrote. -/
theorem readBytes_writeBytes (m : Memory) (hw : m.wf) (a : Nat) (l : List Byte) :
    (m.writeBytes a l).readBytes a l.length = l := by
  apply List.ext_getElem
  · simp
  · intro k h1 h2
    have := read_writeBytes_inside m hw a l h2
    simpa [Memory.readBytes, h2] using this

/-- Two memories that read alike on a range give the same bytes. -/
theorem readBytes_congr {m m' : Memory} {a n : Nat} (h : ∀ k, k < n → m.read (a + k) = m'.read (a + k)) :
    m.readBytes a n = m'.readBytes a n := by
  simp only [Memory.readBytes]
  exact List.map_congr_left (fun k hk => h k (by simpa using hk))

end Sys2Proof.Machine
end

