-- ==== Sys2Proof/Laws/PerInstr.lean ====
section
/-! SUPPORT. Statements about every command as syntax, one lemma per constructor. -/

namespace Sys2Proof.Laws.EncodeFields

/-- The encoder puts each field where the decoder reads it, and leaves the reserved bits 0 (R90, R91). -/
def Statement (i : Instr) : Prop :=
  i.wellFormed = true →
    fieldOp (encode i) = opcodeOf i ∧ fieldPad (encode i) = padFieldOf i ∧
      fieldRnd (encode i) = rndFieldOf i ∧ fieldRsv (encode i) = 0

theorem nop : Statement .nop := by intro _; decide
theorem keyexp : Statement .keyexp := by intro _; decide
theorem encblk : Statement .encblk := by intro _; decide
theorem decblk : Statement .decblk := by intro _; decide
theorem subbytes : Statement .subbytes := by intro _; decide
theorem invsubbytes : Statement .invsubbytes := by intro _; decide
theorem shiftrows : Statement .shiftrows := by intro _; decide
theorem invshiftrows : Statement .invshiftrows := by intro _; decide
theorem mixcolumns : Statement .mixcolumns := by intro _; decide
theorem invmixcolumns : Statement .invmixcolumns := by intro _; decide
theorem addroundkey (rnd : Nat) : Statement (.addroundkey rnd) := by
  intro h
  have hr : rnd < 16 := by simpa [Instr.wellFormed] using h
  interval_cases rnd <;> decide
theorem pkcs7pad : Statement .pkcs7pad := by intro _; decide
theorem pkcs7unpad : Statement .pkcs7unpad := by intro _; decide
theorem m2pad : Statement .m2pad := by intro _; decide
theorem m2unpad : Statement .m2unpad := by intro _; decide
theorem ecbenc (pad : PadScheme) : Statement (.ecbenc pad) := by intro _; cases pad <;> decide
theorem ecbdec (pad : PadScheme) : Statement (.ecbdec pad) := by intro _; cases pad <;> decide
theorem cbcenc (pad : PadScheme) : Statement (.cbcenc pad) := by intro _; cases pad <;> decide
theorem cbcdec (pad : PadScheme) : Statement (.cbcdec pad) := by intro _; cases pad <;> decide
theorem cmackeys : Statement .cmackeys := by intro _; decide
theorem cmac : Statement .cmac := by intro _; decide

end Sys2Proof.Laws.EncodeFields
end

