-- ==== Sys2Proof/Machine/Script.lean ====
section
/-! DEFINITION. The host script notation and its pseudo-operations (spec/30_encoding.md R104, R105): what host operations
a line stands for. -/

namespace Sys2Proof.Machine

/-- A line of a host script (R104, R105). -/
inductive ScriptLine where
  | reset
  | wr (r : Reg) (bytes : List Byte)
  | wrs (r : Reg) (n : Nat)
  | cmd (i : Instr)
  | cmdWord (w : BitVec 16)
  | rd (r : Reg)
  | rds (r : Reg)
  | loadKey (bytes : List Byte)
  | loadIV (bytes : List Byte)
  | loadData (bytes : List Byte)
  | loadBlk (bytes : List Byte)
  deriving DecidableEq, Repr

/-- WR r: one HostWrite for each byte that has a cell, in index order (R104; R105: the rest name no cell). -/
def wrOps (p : Config.Params) (r : Reg) (bytes : List Byte) : List HostOp :=
  ((List.range bytes.length).filter (cellExists p r)).map (fun i => .write r i (bytes.getD i 0).toNat)

/-- The number of cells RD reads: every cell of the register, for DBUF the cells 0 to DLEN - 1 (R104). -/
def rdCount (s : State) (r : Reg) : Nat :=
  match r with
  | .cmd | .status | .keylen | .nr | .ivlen | .padbs | .dlen => 1
  | .key => 32
  | .rk => 240
  | .blk | .iv | .k1 | .k2 | .tag => 16
  | .dbuf => s.dlen

/-- The host operations of a line, in order (R104, R105). -/
def scriptOps (s : State) (line : ScriptLine) : List HostOp :=
  match line with
  | .reset => [.reset]
  | .wr r bytes => wrOps s.params r bytes
  | .wrs r n => [.write r 0 n]
  | .cmd i => [.write .cmd 0 (encode i).toNat]
  | .cmdWord w => [.write .cmd 0 w.toNat]
  | .rd r => (List.range (rdCount s r)).map (fun i => .read r i)
  | .rds r => [.read r 0]
  | .loadKey bytes => wrOps s.params .key bytes ++ [.write .keylen 0 bytes.length]
  | .loadIV bytes => wrOps s.params .iv bytes ++ [.write .ivlen 0 bytes.length]
  | .loadData bytes => wrOps s.params .dbuf bytes ++ [.write .dlen 0 bytes.length]
  | .loadBlk bytes => wrOps s.params .blk bytes

/-- The host issues a line: its operations come after those already pending. -/
def issue (line : ScriptLine) (s : State) : State := { s with pending := s.pending ++ scriptOps s line }

end Sys2Proof.Machine
end

