-- ==== Sys2Proof/Tests/Slice0.lean ====
section
/-! SUPPORT. Tests and witnesses. A test's expected value comes from spec/ (the vector or rule is named), never from the
model. A witness shows a state and operands that meet all hypotheses of a statement, one for each of its clauses. -/

namespace Sys2Proof.Tests

-- one test at a time: checked side by side the cipher tests need too much memory
set_option Elab.async false

open Sys2Proof.Machine Sys2Proof.Claims

/-! Helpers. -/

/-- The len bytes of a number written in hex, byte 0 first (R8). -/
def hex (len n : Nat) : List Byte := (List.range len).map (fun i => BitVec.ofNat 8 (n / 256 ^ (len - 1 - i)))

/-- A block written in hex. -/
def blk (n : Nat) : Block := ofBytes 16 (hex 16 n)

/-- K128 of 95_test_vectors.md. -/
def k128 : Nat := 0x2b7e151628aed2a6abf7158809cf4f3c

/-- M16 of 95_test_vectors.md. -/
def m16 : Nat := 0x6bc1bee22e409f96e93d7e117393172a

/-- An instance with MAXLEN = 96 holding K128, IV0 and the message msg. -/
def loaded (msg : List Byte) : State :=
  { State.resetWith ⟨some 96, 32⟩ with
    key := ofBytes 32 (hex 16 k128)
    keylen := 16
    iv := blk 0x000102030405060708090a0b0c0d0e0f
    ivlen := 16
    dbuf := Memory.writeBytes [] 0 msg
    dlen := msg.length }

/-- The same instance after KEYEXP, with b in BLK. -/
def scheduled (b : Block) : State :=
  { loaded [] with rk := rkOf (scheduleOf (hex 16 k128)), nr := 10, status := 0x0010, blk := b }

/-- A reset instance with b in BLK. -/
def withBlk (b : Nat) : State := { State.reset with blk := blk b }

/-- The same instance with an operation pending. -/
def asked (op : HostOp) (s : State) : State := { s with pending := [op] }

/-- The outcome is a next state with the property p. -/
def nexts (r : Result State) (p : State → Bool) : Bool :=
  match r with
  | .next t => p t
  | .fault _ => false
  | .refused _ => false

/-- The outcome is a next state with this ERR, DLEN and these first bytes of DBUF. -/
def gives (r : Result State) (e : BitVec 4) (dlen : Nat) (bytes : List Byte) : Bool :=
  nexts r (fun t => t.err = e && t.dlen = dlen && t.dbuf.readBytes 0 bytes.length = bytes)

/-! WellFormed refuses an ill-formed term (R95: RND has 4 bits). -/

theorem test_wellFormed_refuses_round_16 : (Instr.addroundkey 16).wellFormed = false := by decide

theorem test_wellFormed_accepts_round_15 : (Instr.addroundkey 15).wellFormed = true := by decide

/-! Decoding: each constructor's word as R93 and R94 write it (fields RSV, RND, PAD, OP). -/

theorem test_decode_plain :
    decode 0b00_0000_00_00000000 = .ok .nop ∧ decode 0b00_0000_00_00000001 = .ok .keyexp ∧
    decode 0b00_0000_00_00000010 = .ok .encblk ∧ decode 0b00_0000_00_00000011 = .ok .decblk := by decide

theorem test_decode_steps :
    decode 0b00_0000_00_00010000 = .ok .subbytes ∧ decode 0b00_0000_00_00010001 = .ok .invsubbytes ∧
    decode 0b00_0000_00_00010010 = .ok .shiftrows ∧ decode 0b00_0000_00_00010011 = .ok .invshiftrows ∧
    decode 0b00_0000_00_00010100 = .ok .mixcolumns ∧ decode 0b00_0000_00_00010101 = .ok .invmixcolumns ∧
    decode 0b00_0000_00_00010110 = .ok (.addroundkey 0) ∧ decode 0b00_1010_00_00010110 = .ok (.addroundkey 10) := by
  decide

theorem test_decode_padding :
    decode 0b00_0000_00_00100000 = .ok .pkcs7pad ∧ decode 0b00_0000_00_00100001 = .ok .pkcs7unpad ∧
    decode 0b00_0000_00_00100010 = .ok .m2pad ∧ decode 0b00_0000_00_00100011 = .ok .m2unpad := by decide

theorem test_decode_modes :
    decode 0b00_0000_00_00110000 = .ok (.ecbenc .none) ∧ decode 0b00_0000_01_00110000 = .ok (.ecbenc .pkcs7) ∧
    decode 0b00_0000_10_00110001 = .ok (.ecbdec .m2) ∧ decode 0b00_0000_01_00110010 = .ok (.cbcenc .pkcs7) ∧
    decode 0b00_0000_10_00110011 = .ok (.cbcdec .m2) := by decide

theorem test_decode_cmac :
    decode 0b00_0000_00_01000000 = .ok .cmackeys ∧ decode 0b00_0000_00_01000001 = .ok .cmac := by decide

/-- R92, R100: each way a word is illegal, by name. -/
theorem test_decode_rejects :
    decode 0x4000 = .error .reservedBits ∧ decode 0x0004 = .error .unknownOpcode ∧
    decode 0x0017 = .error .unknownOpcode ∧ decode 0x0042 = .error .unknownOpcode ∧
    decode 0x0120 = .error .unusedPad ∧ decode 0x0116 = .error .unusedPad ∧ decode 0x0330 = .error .reservedPad ∧
    decode 0x0401 = .error .unusedRnd ∧ decode 0x0430 = .error .unusedRnd ∧ decode 0xffff = .error .reservedBits := by
  decide

/-- Words named in R170, 95_test_vectors.md P2, P3 and P4. -/
theorem test_encode :
    encode (.addroundkey 10) = 0x2816 ∧ encode (.addroundkey 15) = 0x3c16 ∧ encode (.cbcdec .pkcs7) = 0x0133 ∧
    encode (.ecbenc .m2) = 0x0230 ∧ encode .cmac = 0x0041 := by decide

theorem test_decodeTableWord :
    decodeTableWord 16 0x0c16 = some (.addroundkey 3) ∧ decodeTableWord 16 0x0332 = none := by decide

/-! The field and the tables. -/

/-- The hash of T40-6. -/
def tableHash (f : Byte → Byte) : Nat := allBytes.foldl (fun h a => (31 * h + (f a).toNat) % 65521) 0

/-- T40-6. -/
theorem test_sbox_hash : tableHash sbox = 12557 ∧ tableHash invSbox = 15773 := by decide +kernel

/-- T40-6. -/
theorem test_mul_hash : tableHash mul2 = 61854 ∧ tableHash mul3 = 49678 ∧ tableHash mul9 = 15137 ∧
    tableHash mul11 = 41844 ∧ tableHash mul13 = 49067 ∧ tableHash mul14 = 42740 := by decide +kernel

/-- R123: the formula at a corner and at FIPS-197's example. -/
theorem test_sbox_formula : sboxFormula 0x00 = 0x63 ∧ sboxFormula 0x53 = 0xed := by decide +kernel

/-- T40-7. -/
theorem test_rcon : (List.range 10).map (fun j => rcon (j + 1)) =
    [0x01, 0x02, 0x04, 0x08, 0x10, 0x20, 0x40, 0x80, 0x1b, 0x36] := by decide

/-- R168: the diagonal of the matrix identity. -/
theorem test_gmul : gmul 14 2 = 0x1c ∧ gmul 9 3 = 0x1b ∧ gmul 14 2 ^^^ gmul 11 1 ^^^ gmul 13 1 ^^^ gmul 9 3 = 0x01 := by
  decide

/-! The key schedule. -/

/-- KS1: rounds 1 and 10 of the schedule of K128, and the zero fill (R147). -/
theorem test_keyexp_ks1 : nexts (exec .keyexp (loaded [])) (fun t =>
    t.status = 0x0010 && t.nr = 10 &&
    (t.rk.toList.drop 16).take 16 = hex 16 0xa0fafe1788542cb123a339392a6c7605 &&
    (t.rk.toList.drop 160).take 16 = hex 16 0xd014f9a8c9ee2589e13f0cc8b6630ca6 &&
    (t.rk.toList.drop 176).all (fun b => b = 0)) = true := by decide +kernel

/-- T41-6, T41-7: KS3 word 12 (the AES-256 branch) and KS2 word 10 (no such branch). -/
theorem test_schedule_branches :
    wordOf (scheduleOf (hex 32 0x603deb1015ca71be2b73aef0857d77811f352c073b6108d72d9810a30914dff4)) 12 =
      ⟨0xa8, 0xb0, 0x9c, 0x1a⟩ ∧
    wordOf (scheduleOf (hex 24 0x8e73b0f7da0e6452c810f32b809079e562f8ead2522c6b7b)) 10 = ⟨0x0e, 0x7a, 0x95, 0xb9⟩ := by
  decide +kernel

/-! The step and block commands. -/

/-- T42-1. -/
theorem test_subbytes : nexts (exec .subbytes (withBlk 0x000102030405060708090a0b0c0d0e0f)) (fun t =>
    t.err = 0 && t.blk = blk 0x637c777bf26b6fc53001672bfed7ab76) = true := by decide +kernel

/-- T42-1. -/
theorem test_invsubbytes : nexts (exec .invsubbytes (withBlk 0x000102030405060708090a0b0c0d0e0f)) (fun t =>
    t.err = 0 && t.blk = blk 0x52096ad53036a538bf40a39e81f3d7fb) = true := by decide +kernel

/-- T42-1. -/
theorem test_shiftrows : nexts (exec .shiftrows (withBlk 0x000102030405060708090a0b0c0d0e0f)) (fun t =>
    t.err = 0 && t.blk = blk 0x00050a0f04090e03080d02070c01060b) = true := by decide +kernel

/-- T42-1. -/
theorem test_invshiftrows : nexts (exec .invshiftrows (withBlk 0x000102030405060708090a0b0c0d0e0f)) (fun t =>
    t.err = 0 && t.blk = blk 0x000d0a0704010e0b0805020f0c090603) = true := by decide +kernel

/-- R160: db135345, f20a225c, 01010101, c6c6c6c6 give 8e4da1bc, 9fdc589d, 01010101, c6c6c6c6. -/
theorem test_mixcolumns : nexts (exec .mixcolumns (withBlk 0xdb135345f20a225c01010101c6c6c6c6)) (fun t =>
    t.err = 0 && t.blk = blk 0x8e4da1bc9fdc589d01010101c6c6c6c6) = true := by decide +kernel

/-- R161. -/
theorem test_invmixcolumns : nexts (exec .invmixcolumns (withBlk 0x000102030405060708090a0b0c0d0e0f)) (fun t =>
    t.err = 0 && t.blk = blk 0x0a0f080d0e0b0c090207000506030401) = true := by decide +kernel

/-- R170, R178. -/
theorem test_addroundkey : nexts (exec (.addroundkey 1) (scheduled (blk 0x046681e5e0cb199a48f8d37a2806264c))) (fun t =>
    t.status = 0x0010 && t.blk = blk 0xa49c7ff2689f352b6b5bea43026a5049) = true := by decide +kernel

/-- T60-1: the order of the two errors of ADDROUNDKEY. -/
theorem test_addroundkey_errors :
    nexts (exec (.addroundkey 15) State.reset) (fun t => t.err = 7) = true ∧
    nexts (exec (.addroundkey 15) { State.reset with nr := 10, status := 0x0010 }) (fun t => t.status = 0x0016) = true := by
  decide +kernel

/-- V1. -/
theorem test_encblk : nexts (exec .encblk (scheduled (blk 0x3243f6a8885a308d313198a2e0370734))) (fun t =>
    t.status = 0x0010 && t.blk = blk 0x3925841d02dc09fbdc118597196a0b32) = true := by decide +kernel

/-- R174's example. -/
theorem test_decblk : nexts (exec .decblk (scheduled (blk 0x3925841d02dc09fbdc118597196a0b32))) (fun t =>
    t.status = 0x0010 && t.blk = blk 0x3243f6a8885a308d313198a2e0370734) = true := by decide +kernel

/-- T46-1: NOP clears ERR and keeps SCHED_VALID. -/
theorem test_nop : nexts (exec .nop { State.reset with status := 0x0017 }) (fun t => t.status = 0x0010) = true := by
  decide +kernel

/-! Padding. -/

/-- T43-1. -/
theorem test_pkcs7pad : gives (exec .pkcs7pad { loaded (hex 3 0x010203) with padbs := 8 }) 0 8
    (hex 8 0x0102030505050505) = true := by decide +kernel

/-- T43-40: the zero bytes are written over stale bytes, and only those. -/
theorem test_m2pad : gives (exec .m2pad { loaded (hex 8 0xaa02030405060708) with dlen := 1, padbs := 4 }) 0 4
    (hex 8 0xaa80000005060708) = true := by decide +kernel

/-- T43-23, T43-24: every pad byte is checked; the buffer stays. -/
theorem test_pkcs7unpad :
    gives (exec .pkcs7unpad (loaded (hex 8 0x0102030505050505))) 0 3 (hex 8 0x0102030505050505) = true ∧
    gives (exec .pkcs7unpad (loaded (hex 8 0x0102030505050405))) 5 8 (hex 8 0x0102030505050405) = true := by
  decide +kernel

/-- T43-31, T43-28. -/
theorem test_m2unpad :
    gives (exec .m2unpad (loaded (hex 4 0x01800080))) 0 3 (hex 4 0x01800080) = true ∧
    gives (exec .m2unpad (loaded (hex 8 0x0102030000000000))) 5 8 (hex 8 0x0102030000000000) = true := by
  decide +kernel

/-- T43-39, T60-1: block size before capacity. -/
theorem test_pad_errors :
    nexts (exec .pkcs7pad { loaded [] with dlen := 96, padbs := 16 }) (fun t => t.err = 8 && t.dlen = 96) = true ∧
    nexts (exec .m2pad { loaded [] with dlen := 200, padbs := 0 }) (fun t => t.err = 4 && t.dlen = 200) = true := by
  decide +kernel

/-! Modes. -/

/-- T44-3. -/
theorem test_ecbenc : gives (exec (.ecbenc .pkcs7) (loaded (hex 3 0x010203))) 0 16
    (hex 16 0x8bde6bedb67018f2e673ac90fb1bfbd4) = true := by decide +kernel

/-- T44-42 and T44-41: the whole plaintext is written on success, nothing on invalid padding. -/
theorem test_ecbdec :
    gives (exec (.ecbdec .none) (loaded (hex 16 0x8bde6bedb67018f2e673ac90fb1bfbd4))) 0 16
      (hex 16 0x0102030d0d0d0d0d0d0d0d0d0d0d0d0d) = true ∧
    gives (exec (.ecbdec .m2) (loaded (hex 16 0x8bde6bedb67018f2e673ac90fb1bfbd4))) 5 16
      (hex 16 0x8bde6bedb67018f2e673ac90fb1bfbd4) = true := by decide +kernel

/-- T44-11. -/
theorem test_cbcenc : gives (exec (.cbcenc .m2) (loaded (hex 16 m16))) 0 32
    (hex 32 0x7649abac8119b246cee98e9b12e9197d7bf58f5976824ae38b3866effb261160) = true := by decide +kernel

/-- T44-10 decrypted. -/
theorem test_cbcdec :
    gives (exec (.cbcdec .pkcs7) (loaded (hex 32 0x7649abac8119b246cee98e9b12e9197d8964e0b149c10b7b682e6e39aaeb731c))) 0 16
      (hex 32 (m16 * 2 ^ 128 + 0x10101010101010101010101010101010)) = true := by decide +kernel

/-- T60-1: key, then IV, then length, then capacity. -/
theorem test_mode_error_order :
    nexts (exec (.cbcenc .none) { loaded [] with keylen := 5, ivlen := 3, dlen := 7 }) (fun t => t.err = 1) = true ∧
    nexts (exec (.cbcenc .none) { loaded [] with ivlen := 3, dlen := 7 }) (fun t => t.err = 2) = true ∧
    nexts (exec (.ecbdec .none) { loaded [] with dlen := 200 }) (fun t => t.err = 3) = true ∧
    nexts (exec (.ecbdec .pkcs7) { loaded [] with dlen := 208 }) (fun t => t.err = 8) = true := by decide +kernel

/-! CMAC. -/

/-- V8. -/
theorem test_cmackeys : nexts (exec .cmackeys (loaded [])) (fun t =>
    t.err = 0 && t.k1 = blk 0xfbeed618357133667c85e08f7236a8de && t.k2 = blk 0xf7ddac306ae266ccf90bc11ee46d513b) =
      true := by decide +kernel

/-- S4: the vector of the source itself. -/
theorem test_cmac_empty : nexts (exec .cmac (loaded [])) (fun t =>
    t.err = 0 && t.tag = blk 0xbb1d6929e95937287fa37d129b756746) = true := by decide +kernel

/-- T45-2, n = 17 (a complete block, then a padded one). -/
theorem test_cmac_17 : nexts (exec .cmac (loaded (hex 17 (m16 * 256 + 0xae)))) (fun t =>
    t.tag = blk 0xbc72cc168ec5a1434dcdb20bc1a2c2a4) = true := by decide +kernel

/-- T45-1. -/
theorem test_dbl :
    dbl (blk 0xffffffffffffffffffffffffffffffff) = blk 0xffffffffffffffffffffffffffffff79 ∧
    dbl (blk 0x0123456789abcdeffedcba9876543210) = blk 0x02468acf13579bdffdb97530eca86420 := by decide +kernel

/-! The host. -/

/-- T70-2, one row: the first command after reset. -/
theorem test_first_command : nexts (step (State.reset.withFetchWord 16 0x0010)) (fun t =>
    t.cmd = 0x0010 && t.err = 0 && t.blk = blk 0x63636363636363636363636363636363) = true := by decide +kernel

/-- T60-2: an illegal word changes ERR and CMD only. -/
theorem test_illegal_word : nexts (step (State.reset.withFetchWord 16 0x0004)) (fun t =>
    t = { State.reset with cmd := 0x0004, status := 0x0006 }) = true := by decide +kernel

/-- R62, R43, R66: a read returns the cell; a read-only register keeps its value; KEYLEN keeps 8 bits. -/
theorem test_host_access :
    nexts (step (asked (.read .iv 15) (loaded []))) (fun t => t.readData = some 0x0f) = true ∧
    nexts (step (asked (.write .nr 0 5) State.reset)) (fun t => t = State.reset) = true ∧
    nexts (step (asked (.write .keylen 0 0x110) State.reset)) (fun t => t.keylen = 0x10) = true := by decide +kernel

/-- R72: DLEN at offset 0x0018, TAG[1] at 0x0081, DBUF[0] at 0x1000; anything else is stray. -/
theorem test_bus :
    nexts (step (asked (.busWrite 0x0018 4 77) State.reset)) (fun t => t.dlen = 77) = true ∧
    busCell Config.defaultParams 0x0081 1 = some (.tag, 1) ∧ busCell Config.defaultParams 0x1000 1 = some (.dbuf, 0) ∧
    busCell Config.defaultParams 0x0018 1 = none := by decide +kernel

theorem test_stray_bus_access : step (asked (.busRead 0x0018 1) State.reset) = .refused (.strayBusAccess 0x0018 1) := rfl

/-- R62: an index outside the register names no cell. -/
theorem test_missing_cell : step (asked (.read .blk 16) State.reset) = .fault (.noSuchCell .blk 16) := rfl

/-- R301: Reset abandons a command. -/
theorem test_reset_during : nexts (step (asked (.resetDuring 0x0030) (loaded [1, 2, 3]))) (fun t =>
    t = State.resetWith ⟨some 96, 32⟩) = true := by decide +kernel

/-- R104, R105: LOADIV writes the bytes and then their number; a 64-byte LOADKEY writes the 32 cells KEY has. -/
theorem test_script :
    scriptOps State.reset (.loadIV [7]) = [.write .iv 0 7, .write .ivlen 0 1] ∧
    scriptOps State.reset (.cmd (.ecbenc .m2)) = [.write .cmd 0 0x0230] ∧
    (scriptOps State.reset (.loadKey (hex 64 0))).length = 33 := by decide +kernel

/-- DBUF keeps its canonical form: writing 0x00 removes the entry. -/
theorem test_memory_canonical :
    Memory.write (Memory.write (Memory.write [] 5 1) 3 2) 5 0 = [(3, 2)] ∧
    (Memory.write (Memory.write [] 5 1) 3 2).read 4 = 0 := by decide

/-! Witnesses: for each statement of Certificates/Slice0/Obligations.lean with hypotheses, a state and operands that meet
them together, clause by clause, at a boundary of each range. -/

/-- The instance with a host script of one operation. -/
def hostState (op : HostOp) : State := asked op State.reset

/-- A length against a bounded capacity. -/
theorem fits_of {s : State} {m n : Nat} (h : s.params.maxLen = some m) (hn : n ≤ m) : Fits s n := by
  simpa [Fits, h] using hn

theorem not_fits_of {s : State} {m n : Nat} (h : s.params.maxLen = some m) (hn : m < n) : ¬ Fits s n := by
  simpa [Fits, h] using hn

theorem witness_DecodeOfEncode :
    (Instr.addroundkey 0).wellFormed = true ∧ (Instr.addroundkey 15).wellFormed = true ∧
      (Instr.cbcdec .m2).wellFormed = true := by decide

theorem witness_EncodeOfDecode : decode 0x3c16 = .ok (.addroundkey 15) ∧ decode 0x0233 = .ok (.cbcdec .m2) := by decide

/-- A word that is illegal (PAD = 3) and one that is legal (RND = 15). -/
theorem witness_StrictDecoding :
    (∀ i, decode 0x0330 ≠ .ok i) ∧ decode 0x3c16 = .ok (.addroundkey 15) := by
  have h : decode 0x0330 = .error .reservedPad := by decide
  exact ⟨fun i hi => (nomatch h.symm.trans hi), by decide⟩

theorem witness_StepRunsDecodedCommand :
    (State.reset.withFetchWord 16 0x0041).pending = .write .cmd 0 0x0041 :: [] ∧
      decode (BitVec.ofNat 16 0x0041) = .ok .cmac := by decide

theorem witness_IdleStepChangesNothing : State.reset.pending = [] := rfl

/-- The last cell of RK read, CMD written, STATUS written, the last cell of DBUF written, DLEN written. -/
theorem witness_HostAccessRights :
    State.reset.dbuf.wf ∧ cellExists State.reset.params .rk 239 = true ∧ cellExists State.reset.params .cmd 0 = true ∧
      (cellExists State.reset.params .status 0 = true ∧ ReadOnly .status) ∧
      (cellExists State.reset.params .dbuf 4095 = true ∧ ¬ ReadOnly .dbuf ∧ FitsCell State.reset.params .dbuf 255) ∧
      (cellExists State.reset.params .dlen 0 = true ∧ ¬ ReadOnly .dlen ∧
        FitsCell State.reset.params .dlen (2 ^ 32 - 1)) ∧
      (hostState (.read .rk 239)).pending = .read .rk 239 :: [] := by
  refine ⟨by decide, by decide, by decide, ⟨by decide, trivial⟩, ⟨by decide, fun h => h, ?_⟩,
    ⟨by decide, fun h => h, ?_⟩, rfl⟩
  · show 255 < 256; decide
  · show lengthFits State.reset.params (2 ^ 32 - 1) = true; decide

theorem witness_ScalarWritesKeepLowBits :
    (hostState (.write .keylen 0 256)).pending = .write .keylen 0 256 :: [] ∧
      (hostState (.write .dlen 0 (2 ^ 32))).pending = .write .dlen 0 (2 ^ 32) :: [] := ⟨rfl, rfl⟩

/-- One past the last cell of KEY and of DBUF; the first free slot after DLEN; a byte access to a scalar. -/
theorem witness_MissingCellsStop :
    (cellExists State.reset.params .key 32 = false ∧ (hostState (.read .key 32)).pending = .read .key 32 :: []) ∧
      cellExists State.reset.params .dbuf 4096 = false ∧
      (busCell State.reset.params 0x001c 4 = none ∧
        (hostState (.busRead 0x001c 4)).pending = .busRead 0x001c 4 :: []) ∧
      busCell State.reset.params 0x0000 1 = none := by decide

/-- The first and the last byte of two neighbouring windows, and the last byte of DBUF. -/
theorem witness_BusMapNamesEveryCellOnce :
    cellExists State.reset.params .dbuf 4095 = true ∧
      busCell State.reset.params 0x1fff 1 = some (.dbuf, 4095) ∧ busCell State.reset.params 0x003f 1 = some (.key, 31) ∧
      busCell State.reset.params 0x0040 1 = some (.iv, 0) ∧
      (hostState (.busWrite 0x1fff 1 7)).pending = .busWrite 0x1fff 1 7 :: [] := by decide

theorem witness_ResetClearsEveryCell :
    (hostState .reset).pending = .reset :: [] ∧ (hostState (.resetDuring 0x0041)).pending = .resetDuring 0x0041 :: [] :=
  ⟨rfl, rfl⟩

/-- The smallest legal capacity under the smallest width, and no bound at all. -/
theorem witness_ResetSatisfiesInv :
    ({ maxLen := some 16, lenW := 5 } : Config.Params).legal = true ∧
      ({ maxLen := none, lenW := 32 } : Config.Params).legal = true := by decide

/-- A state with a schedule, mid-script, that meets the invariant and takes a step. -/
theorem witness_StepKeepsInv :
    Inv { scheduled zeroBlock with pending := [.write .cmd 0 0x0000] } ∧
      ∃ t, step { scheduled zeroBlock with pending := [.write .cmd 0 0x0000] } = .next t := by
  refine ⟨⟨⟨by decide, by decide, by decide, by decide⟩, ⟨by decide, by decide⟩, ?_⟩, ⟨_, rfl⟩⟩
  show ScheduleInv _
  have h : State.schedValid { scheduled zeroBlock with pending := [.write .cmd 0 0x0000] } = true := by decide
  rw [ScheduleInv, if_pos h]
  exact ⟨hex 16 k128, .inl rfl, rfl, rfl⟩

theorem witness_SafeHostNeverStops :
    SafeHost { State.reset with pending := [.write .key 31 1, .busRead 0x0014 4, .write .cmd 0 0x0001] } := by
  unfold SafeHost; decide

theorem witness_OnlyListedCommandsWrite :
    (∃ t, exec .nop State.reset = .next t) ∧ Instr.nop ≠ .keyexp ∧ ¬ WritesBlk .nop ∧ ¬ WritesDbuf .nop ∧
      ¬ WritesDlen .nop ∧ ¬ WritesDbuf .pkcs7unpad :=
  ⟨⟨_, rfl⟩, by decide, fun h => h, fun h => h, fun h => h, fun h => h⟩

/-- A legal word that fails: ENCBLK without a schedule. -/
theorem witness_ErrorChangesOnlyErr :
    (∃ t, hostCommand 0x0002 State.reset = .next t ∧ t.err ≠ 0) ∧ decode 0x0002 = .ok .encblk := by
  exact ⟨⟨_, rfl, by decide⟩, by decide⟩

/-- A word that decodes to nothing. -/
theorem witness_ReportedErrorIsFirstInOrder : ∀ i, decode 0xffff ≠ .ok i := by
  have h : decode 0xffff = .error .reservedBits := by decide
  exact fun i hi => nomatch h.symm.trans hi

/-- PKCS7PAD up to the last byte of DBUF, and one that fails because DLEN = MAXLEN. -/
theorem witness_StoresStayInRange :
    (∃ t, exec .pkcs7pad { loaded [] with dlen := 90, padbs := 8 } = .next t ∧ t.err = 0) ∧ WritesDbuf .pkcs7pad ∧
      ∃ t, exec .pkcs7pad { loaded [] with dlen := 96, padbs := 16 } = .next t ∧ t.err ≠ 0 := by
  exact ⟨⟨_, rfl, by decide +kernel⟩, trivial, ⟨_, rfl, by decide +kernel⟩⟩

/-- Two states that differ outside the operands of CMAC and PKCS7UNPAD: BLK, and the bytes from DLEN up. -/
theorem witness_ResultsDependOnlyOnOperands :
    (loaded [5, 1]).dbuf.wf ∧ { loaded [5, 1, 9] with dlen := 2, blk := blk 7 }.dbuf.wf ∧
      SameOperands .pkcs7unpad (loaded [5, 1]) { loaded [5, 1, 9] with dlen := 2, blk := blk 7 } ∧
      (∃ t, exec .pkcs7unpad (loaded [5, 1]) = .next t ∧ t.err = 0) ∧
      ∃ t, exec .pkcs7unpad { loaded [5, 1, 9] with dlen := 2, blk := blk 7 } = .next t := by
  exact ⟨by decide, by decide, ⟨rfl, rfl, by decide⟩, ⟨_, rfl, by decide +kernel⟩, ⟨_, rfl⟩⟩

theorem witness_KeyExpansionRecurrence :
    (hex 16 k128).length = 16 ∧ (hex 24 1).length = 24 ∧ (hex 32 1).length = 32 := by decide

theorem witness_legal_key : LegalKeyLen (loaded []) ∧ LegalKeyLen { loaded [] with keylen := 24 } ∧
    LegalKeyLen { loaded [] with keylen := 32 } ∧ ¬ LegalKeyLen State.reset ∧
    ¬ LegalKeyLen { loaded [] with keylen := 17 } := by
  unfold LegalKeyLen; decide

theorem witness_KeyexpWritesSchedule : LegalKeyLen (loaded []) ∧ ¬ LegalKeyLen State.reset :=
  ⟨witness_legal_key.1, witness_legal_key.2.2.2.1⟩

/-- The last round, the first round past it, and no schedule. -/
theorem witness_AddRoundKeyCommand :
    ((scheduled zeroBlock).schedValid = true ∧ 10 ≤ (scheduled zeroBlock).nr.toNat) ∧
      State.reset.schedValid = false ∧ (scheduled zeroBlock).nr.toNat < 11 := by decide

theorem witness_BlockCommands :
    (scheduled zeroBlock).schedValid = true ∧ State.reset.schedValid = false := by decide

theorem witness_BlockCommandsAreStepCommands :
    (scheduled zeroBlock).schedValid = true ∧ (scheduled zeroBlock).nr = 10 := by decide

theorem witness_DecryptionInvertsEncryption : (scheduled zeroBlock).schedValid = true := by decide

/-- Up to the last byte of DBUF; block size 0; one block too many. -/
theorem witness_Pkcs7padAppends :
    (loaded []).dbuf.wf ∧
      ((8 : BitVec 8) ≠ 0 ∧ Fits { loaded [] with dlen := 90, padbs := 8 } (90 + (8 - 90 % 8))) ∧
      (loaded []).padbs = 0 ∧ ¬ Fits { loaded [] with dlen := 96, padbs := 16 } (96 + (16 - 96 % 16)) := by
  refine ⟨by decide, ⟨by decide, ?_⟩, rfl, ?_⟩ <;> first | exact fits_of rfl (by decide) | exact not_fits_of rfl (by decide)

/-- As for PKCS#7, with the smallest block size. -/
theorem witness_M2padAppends :
    (loaded []).dbuf.wf ∧
      ((1 : BitVec 8) ≠ 0 ∧ Fits { loaded [] with dlen := 95, padbs := 1 } (95 + (1 - 95 % 1))) ∧
      (loaded []).padbs = 0 ∧ ¬ Fits { loaded [] with dlen := 96, padbs := 1 } (96 + (1 - 96 % 1)) := by
  refine ⟨by decide, ⟨by decide, ?_⟩, rfl, ?_⟩ <;> first | exact fits_of rfl (by decide) | exact not_fits_of rfl (by decide)

/-- A message that is all padding (T43-17), the empty message (T43-13), and a DLEN above MAXLEN. -/
theorem witness_Pkcs7unpadChecksEveryByte :
    (Fits (loaded [2, 2]) 2 ∧ ∀ a, 0 ≤ a → a < 2 → ((loaded [2, 2]).dbuf.read a).toNat = 2) ∧
      (Fits (loaded []) 0 ∧ ∀ n, 1 ≤ n → n ≤ (loaded []).dlen →
        ∃ a, 0 - n ≤ a ∧ a < 0 ∧ ((loaded []).dbuf.read a).toNat ≠ n) ∧
      ¬ Fits { loaded [] with dlen := 97 } 97 := by
  refine ⟨⟨?_, ?_⟩, ⟨?_, ?_⟩, ?_⟩
  · exact fits_of rfl (by decide)
  · intro a _ h; interval_cases a <;> rfl
  · exact fits_of rfl (by decide)
  · intro n h1 h2; exact absurd (h1.trans h2) (by decide)
  · exact not_fits_of rfl (by decide)

/-- The marker at index 0 (T43-16), the message 0102 (T43-19), and a DLEN above MAXLEN. -/
theorem witness_M2unpadScansBack :
    (Fits (loaded [0x80]) 1 ∧ 0 < (loaded [0x80]).dlen ∧ (loaded [0x80]).dbuf.read 0 = 0x80 ∧
        ∀ a, 0 < a → a < (loaded [0x80]).dlen → (loaded [0x80]).dbuf.read a = 0x00) ∧
      (Fits (loaded [1, 2]) 2 ∧ ∀ i, i < (loaded [1, 2]).dlen → (loaded [1, 2]).dbuf.read i = 0x80 →
        ∃ a, i < a ∧ a < 2 ∧ (loaded [1, 2]).dbuf.read a ≠ 0x00) ∧
      ¬ Fits { loaded [] with dlen := 97 } 97 := by
  refine ⟨⟨?_, by decide, by decide, ?_⟩, ⟨?_, ?_⟩, ?_⟩
  · exact fits_of rfl (by decide)
  · intro a h1 h2; have h3 : a < 1 := h2; omega
  · exact fits_of rfl (by decide)
  · intro i h hi; have h2 : i < 2 := h; interval_cases i <;> exact absurd hi (by decide)
  · exact not_fits_of rfl (by decide)

theorem witness_UnpaddingInvertsPadding : 1 ≤ 1 ∧ 1 ≤ 255 ∧ 1 ≤ 255 ∧ 255 ≤ 255 := by decide

/-- The padded message of each scheme; the fullest buffer that fits; a misaligned length; one block too many. -/
theorem witness_EcbencEncryptsEachBlock :
    (loaded [7]).dbuf.wf ∧ LegalKeyLen (loaded [7]) ∧
      (IsPadded .none (message (loaded [])) [] ∧ (loaded []).dlen % 16 = 0 ∧ Fits (loaded []) 0) ∧
      (∃ p, IsPadded .pkcs7 (message (loaded [7])) p ∧ Fits (loaded [7]) p.length) ∧
      (∃ p, IsPadded .m2 (message (loaded [7])) p ∧ Fits (loaded [7]) p.length) ∧
      (IsPadded .none (message (loaded [7])) [7] ∧ (loaded [7]).dlen % 16 ≠ 0) ∧
      (∃ p, IsPadded .pkcs7 (message { loaded [] with dlen := 96 }) p ∧ ¬ Fits { loaded [] with dlen := 96 } p.length) ∧
      ¬ LegalKeyLen State.reset := by
  refine ⟨by decide, witness_legal_key.1, ⟨rfl, rfl, ?_⟩, ⟨_, rfl, ?_⟩, ⟨_, rfl, ?_⟩, ⟨rfl, by decide⟩, ⟨_, rfl, ?_⟩,
    witness_legal_key.2.2.2.1⟩ <;> first | exact fits_of rfl (by decide +kernel) | exact not_fits_of rfl (by decide +kernel)

/-- A one-block ciphertext that unpads (T44-3), the same under the wrong scheme (T44-41), and the error clauses. -/
theorem witness_EcbdecDecryptsEachBlock :
    let s := loaded (hex 16 0x8bde6bedb67018f2e673ac90fb1bfbd4)
    let p := hex 16 0x0102030d0d0d0d0d0d0d0d0d0d0d0d0d
    s.dbuf.wf ∧ LegalKeyLen s ∧ s.dlen % 16 = 0 ∧ Fits s s.dlen ∧ IsEcbPlain s p ∧
      unpadBy .pkcs7 p = .ok [1, 2, 3] ∧ unpadBy .m2 p = .error .invalidPadding ∧
      (loaded [7]).dlen % 16 ≠ 0 ∧ ¬ Fits { loaded [] with dlen := 112 } 112 := by
  refine ⟨by decide +kernel, .inl rfl, by decide, ?_, ⟨by decide, ?_⟩, rfl, rfl, by decide, ?_⟩
  · exact fits_of rfl (by decide)
  · intro j hj
    have h0 : j = 0 := Nat.lt_one_iff.mp hj
    subst h0
    decide +kernel
  · exact not_fits_of rfl (by decide)

/-- As for ECBENC, and a bad IVLEN. -/
theorem witness_CbcencChains :
    (loaded [7]).dbuf.wf ∧ LegalKeyLen (loaded [7]) ∧ (loaded [7]).ivlen = 16 ∧
      (∃ p, IsPadded .pkcs7 (message (loaded [7])) p ∧ Fits (loaded [7]) p.length) ∧
      (∃ p, IsPadded .m2 (message (loaded [7])) p ∧ Fits (loaded [7]) p.length) ∧
      (IsPadded .none (message (loaded [])) [] ∧ (loaded []).dlen % 16 = 0 ∧ Fits (loaded []) 0) ∧
      (IsPadded .none (message (loaded [7])) [7] ∧ (loaded [7]).dlen % 16 ≠ 0) ∧
      (∃ p, IsPadded .m2 (message { loaded [] with dlen := 96 }) p ∧ ¬ Fits { loaded [] with dlen := 96 } p.length) ∧
      { loaded [7] with ivlen := 15 }.ivlen ≠ 16 ∧ ¬ LegalKeyLen State.reset := by
  refine ⟨by decide, witness_legal_key.1, rfl, ⟨_, rfl, ?_⟩, ⟨_, rfl, ?_⟩, ⟨rfl, rfl, ?_⟩, ⟨rfl, by decide⟩, ⟨_, rfl, ?_⟩,
    by decide, witness_legal_key.2.2.2.1⟩ <;> first | exact fits_of rfl (by decide +kernel) | exact not_fits_of rfl (by decide +kernel)

/-- T44-9 decrypted: it unpads as PKCS#7 and not as Method 2. -/
theorem witness_CbcdecChains :
    let s := loaded (hex 16 0x66b68414c193c1c7a3ea6b5a54a786b1)
    let p := hex 16 0x0102030d0d0d0d0d0d0d0d0d0d0d0d0d
    s.dbuf.wf ∧ LegalKeyLen s ∧ s.ivlen = 16 ∧ s.dlen % 16 = 0 ∧ Fits s s.dlen ∧ IsCbcPlain s p ∧
      unpadBy .pkcs7 p = .ok [1, 2, 3] ∧ unpadBy .m2 p = .error .invalidPadding ∧
      { loaded [7] with ivlen := 0 }.ivlen ≠ 16 ∧ (loaded [7]).dlen % 16 ≠ 0 ∧
      ¬ Fits { loaded [] with dlen := 112 } 112 := by
  refine ⟨by decide +kernel, .inl rfl, rfl, by decide, ?_, ⟨by decide, ?_⟩, rfl, rfl, by decide, by decide, ?_⟩
  · exact fits_of rfl (by decide)
  · intro j hj
    have h0 : j = 0 := Nat.lt_one_iff.mp hj
    subst h0
    decide +kernel
  · exact not_fits_of rfl (by decide)

/-- The longest message each scheme can encrypt at MAXLEN = 96. -/
theorem witness_EcbRoundTrip :
    (loaded []).dbuf.wf ∧ LegalKeyLen (loaded []) ∧ Fits { loaded [] with dlen := 95 } (paddedLength 95 .pkcs7) ∧
      (96 % 16 = 0 ∧ Fits { loaded [] with dlen := 96 } (paddedLength 96 .none)) := by
  refine ⟨by decide, witness_legal_key.1, ?_, rfl, ?_⟩ <;> exact fits_of rfl (by decide)

theorem witness_CbcRoundTrip :
    (loaded []).dbuf.wf ∧ LegalKeyLen (loaded []) ∧ (loaded []).ivlen = 16 ∧
      Fits { loaded [] with dlen := 95 } (paddedLength 95 .m2) ∧
      (96 % 16 = 0 ∧ Fits { loaded [] with dlen := 96 } (paddedLength 96 .none)) := by
  refine ⟨by decide, witness_legal_key.1, rfl, ?_, rfl, ?_⟩ <;> exact fits_of rfl (by decide)

theorem witness_CmackeysWritesSubkeys : LegalKeyLen (loaded []) ∧ ¬ LegalKeyLen State.reset :=
  ⟨witness_legal_key.1, witness_legal_key.2.2.2.1⟩

/-- T45-6: DLEN = 97 is one above MAXLEN. -/
theorem witness_CmacWritesTag :
    LegalKeyLen (loaded []) ∧ ¬ LegalKeyLen State.reset ∧ Fits { loaded [] with dlen := 96 } 96 ∧
      ¬ Fits { loaded [] with dlen := 97 } 97 := by
  refine ⟨witness_legal_key.1, witness_legal_key.2.2.2.1, ?_, ?_⟩ <;> first | exact fits_of rfl (by decide) | exact not_fits_of rfl (by decide)

end Sys2Proof.Tests
end

section
/-! The host port: what a named access does to every cell (spec/10_state.md R43, spec/20_memory.md R62, R66). -/

namespace Sys2Proof.Machine

open Sys2Proof.Claims

/-! One access by name to an existing cell. -/

theorem withCell_of_exists {r : Reg} {i : Nat} {s : State} (he : cellExists s.params r i = true)
    (k : State → Result State) : withCell r i k s = k s := by
  simp [withCell, he]

theorem step_read_of_exists {s : State} {rest : List HostOp} {r : Reg} {i : Nat} (he : cellExists s.params r i = true)
    (hp : s.pending = .read r i :: rest) : step s = hostRead r i (takeOp s rest) := by
  rw [step, hp]
  exact withCell_of_exists (s := takeOp s rest) he _

theorem step_write_of_exists {s : State} {rest : List HostOp} {r : Reg} {i v : Nat}
    (he : cellExists s.params r i = true) (hp : s.pending = .write r i v :: rest) :
    step s = hostWrite r i v (takeOp s rest) := by
  rw [step, hp]
  exact withCell_of_exists (s := takeOp s rest) he _

@[simp] theorem readCell_takeOp (s : State) (rest : List HostOp) (r : Reg) (i : Nat) :
    readCell (takeOp s rest) r i = readCell s r i := by
  cases r <;> rfl

/-! What a write stores in a cell of each kind: a value that fits is stored unchanged (R66). -/

theorem toNat_ofNat_byte {v : Nat} (hv : v < 256) : (BitVec.ofNat 8 v).toNat = v :=
  (BitVec.toNat_ofNat v 8).trans (Nat.mod_eq_of_lt hv)

theorem toNat_byteAt_setByteAt {n : Nat} (b : Vector Byte n) {i v : Nat} (j : Nat) (hi : i < n) (hv : v < 256) :
    (byteAt (setByteAt b i (BitVec.ofNat 8 v)) j).toNat = if j = i then v else (byteAt b j).toNat := by
  rw [byteAt_setByteAt _ _ _ _ hi, apply_ite BitVec.toNat, toNat_ofNat_byte hv]

theorem toNat_read_write {m : Memory} (hm : m.wf) {i v : Nat} (j : Nat) (hv : v < 256) :
    ((m.write i (BitVec.ofNat 8 v)).read j).toNat = if j = i then v else (m.read j).toNat := by
  by_cases hj : j = i
  · rw [hj, read_write_same m hm, if_pos rfl, toNat_ofNat_byte hv]
  · rw [read_write_other m _ hj, if_neg hj]

theorem truncLength_of_lengthFits {p : Config.Params} {v : Nat} (hv : lengthFits p v = true) : truncLength p v = v := by
  unfold lengthFits at hv
  unfold truncLength
  split
  · rfl
  · next h => simp only [h, decide_eq_true_eq] at hv; exact Nat.mod_eq_of_lt hv

/-! A write by register (R43): CMD aside, it answers a next state, and only cells of its own register can change. -/

theorem hostWrite_of_readOnly {r : Reg} (hr : ReadOnly r) (i v : Nat) (s : State) : hostWrite r i v s = .next s := by
  cases r with
  | status | rk | nr | k1 | k2 | tag => rfl
  | cmd | key | keylen | blk | iv | ivlen | padbs | dbuf | dlen => exact hr.elim

theorem hostWrite_completes {r : Reg} (hc : r ≠ .cmd) (i v : Nat) (s : State) :
    ∃ t, hostWrite r i v s = .next t ∧ t.params = s.params ∧ t.pending = s.pending := by
  cases r with
  | cmd => exact absurd rfl hc
  | status | key | keylen | rk | nr | blk | iv | ivlen | padbs | dbuf | dlen | k1 | k2 | tag =>
    exact ⟨_, rfl, rfl, rfl⟩

theorem readCell_hostWrite_other_register {r r' : Reg} {i v : Nat} {s t : State} (hc : r ≠ .cmd)
    (h : hostWrite r i v s = .next t) (hr : r' ≠ r) (i' : Nat) : readCell t r' i' = readCell s r' i' := by
  cases r with
  | cmd => exact absurd rfl hc
  | status | rk | nr | k1 | k2 | tag => cases h; rfl
  | key | keylen | blk | iv | ivlen | padbs | dbuf | dlen => cases h; cases r' <;> simp [readCell] at hr ⊢

/-- The index decides inside the written register; a scalar has the one cell 0, so there nothing else remains. -/
theorem readCell_hostWrite_same_register {r : Reg} {i i' v : Nat} {s t : State} (hm : s.dbuf.wf)
    (he : cellExists s.params r i = true) (he' : cellExists s.params r i' = true) (hc : r ≠ .cmd) (hr : ¬ ReadOnly r)
    (hv : FitsCell s.params r v) (h : hostWrite r i v s = .next t) :
    readCell t r i' = if i' = i then v else readCell s r i' := by
  cases r with
  | cmd => exact absurd rfl hc
  | status | rk | nr | k1 | k2 | tag => exact absurd trivial hr
  | key | iv | blk => cases h; exact toNat_byteAt_setByteAt _ i' (of_decide_eq_true he) hv
  | dbuf => cases h; exact toNat_read_write hm i' hv
  | keylen | ivlen | padbs =>
    cases h
    rw [if_pos ((of_decide_eq_true he').trans (of_decide_eq_true he).symm)]
    exact toNat_ofNat_byte hv
  | dlen =>
    cases h
    rw [if_pos ((of_decide_eq_true he').trans (of_decide_eq_true he).symm)]
    exact truncLength_of_lengthFits hv

/-- A write of a value that fits stores it in the named cell and keeps every other cell. -/
theorem hostWrite_stores {r : Reg} {i v : Nat} {s : State} (hm : s.dbuf.wf) (he : cellExists s.params r i = true)
    (hc : r ≠ .cmd) (hr : ¬ ReadOnly r) (hv : FitsCell s.params r v) :
    ∃ t, hostWrite r i v s = .next t ∧ readCell t r i = v ∧
      (∀ r' i', cellExists s.params r' i' = true → (r', i') ≠ (r, i) → readCell t r' i' = readCell s r' i') ∧
      t.params = s.params ∧ t.pending = s.pending := by
  obtain ⟨t, h, hparams, hpending⟩ := hostWrite_completes hc i v s
  refine ⟨t, h, ?_, fun r' i' he' hne => ?_, hparams, hpending⟩
  · rw [readCell_hostWrite_same_register hm he he hc hr hv h, if_pos rfl]
  · by_cases hreg : r' = r
    · subst hreg
      have hi : i' ≠ i := fun hi => hne (by rw [hi])
      rw [readCell_hostWrite_same_register hm he he' hc hr hv h, if_neg hi]
    · exact readCell_hostWrite_other_register hc h hreg i'

/-- Settles O8: each clause is the rule of one access (`hostRead`, `hostWrite_of_readOnly`, `hostWrite_stores`) on the
state from which the operation has been taken. -/
theorem hostAccessRights : Obligations.HostAccessRights := by
  unfold Obligations.HostAccessRights
  intro s rest r i v hm he
  refine ⟨fun hp => ?_, fun hp => ?_⟩
  · rw [step_read_of_exists he hp, hostRead, readCell_takeOp]
    rfl
  · rw [step_write_of_exists he hp]
    refine ⟨fun hcmd => ?_, fun hr => hostWrite_of_readOnly hr i v _, fun hc hr hv => ?_⟩
    · subst hcmd; rfl
    · simpa only [readCell_takeOp, takeOp_params, takeOp_pending]
        using hostWrite_stores (s := takeOp s rest) hm he hc hr hv

end Sys2Proof.Machine
end

section
/-! The command word (spec/30_encoding.md R91, R92): its fields, which words decode, and what an illegal word does. -/

namespace Sys2Proof

/-! The fields (R91): dropping k bits is division by 2^k, masking n bits is the remainder modulo 2^n. -/

theorem div_two_pow_mod_two_pow (n k j : Nat) : n / 2 ^ k % 2 ^ j = (n >>> k) &&& (2 ^ j - 1) := by
  rw [Nat.and_two_pow_sub_one_eq_mod, Nat.shiftRight_eq_div_pow]

theorem fieldOp_eq_mask (w : BitVec 16) : fieldOp w = w.toNat &&& 0xff :=
  (Nat.and_two_pow_sub_one_eq_mod w.toNat 8).symm

theorem fieldPad_eq_shift_mask (w : BitVec 16) : fieldPad w = (w.toNat >>> 8) &&& 3 :=
  div_two_pow_mod_two_pow w.toNat 8 2

theorem fieldRnd_eq_shift_mask (w : BitVec 16) : fieldRnd w = (w.toNat >>> 10) &&& 15 :=
  div_two_pow_mod_two_pow w.toNat 10 4

theorem fieldRsv_eq_shift_mask (w : BitVec 16) : fieldRsv w = (w.toNat >>> 14) &&& 3 :=
  div_two_pow_mod_two_pow w.toNat 14 2

/-- Settles O5: one lemma per field. -/
theorem wordFields : Obligations.WordFields := by
  unfold Obligations.WordFields
  exact fun w =>
    ⟨fieldOp_eq_mask w, fieldPad_eq_shift_mask w, fieldRnd_eq_shift_mask w, fieldRsv_eq_shift_mask w⟩

/-! The three operand forms of the opcode map: which fields each accepts (R92). -/

theorem decodePlain_ok_iff (c : Instr) (pad rnd : Nat) :
    (∃ i, decodePlain c pad rnd = .ok i) ↔ pad = 0 ∧ rnd = 0 := by
  unfold decodePlain
  by_cases hpad : pad = 0 <;> by_cases hrnd : rnd = 0 <;> simp [hpad, hrnd]

theorem decodeRound_ok_iff (pad rnd : Nat) : (∃ i, decodeRound pad rnd = .ok i) ↔ pad = 0 := by
  unfold decodeRound
  by_cases hpad : pad = 0 <;> simp [hpad]

theorem padOfCode_eq_none_iff (pad : Nat) : padOfCode pad = Option.none ↔ 2 < pad := by
  match pad with
  | 0 | 1 | 2 => decide
  | n + 3 => simp [padOfCode]

theorem decodeMode_ok_iff (mk : PadScheme → Instr) (pad rnd : Nat) :
    (∃ i, decodeMode mk pad rnd = .ok i) ↔ pad ≤ 2 ∧ rnd = 0 := by
  have hnone := padOfCode_eq_none_iff pad
  unfold decodeMode
  cases h : padOfCode pad with
  | none =>
    have hpad : 2 < pad := hnone.mp h
    simp [Nat.not_le.mpr hpad]
  | some p =>
    have hpad : pad ≤ 2 := by simpa [h] using hnone
    by_cases hrnd : rnd = 0 <;> simp [hpad, hrnd]

/-! The map and the word. -/

/-- The opcodes of R93. -/
def opcodes : List Nat :=
  [0x00, 0x01, 0x02, 0x03, 0x10, 0x11, 0x12, 0x13, 0x14, 0x15, 0x16, 0x20, 0x21, 0x22, 0x23, 0x30, 0x31, 0x32, 0x33,
    0x40, 0x41]

/-- The condition of R92 on OP, PAD and RND; `decodeFields_ok_iff` ties it to the decoder. -/
def LegalFields (op pad rnd : Nat) : Prop :=
  op ∈ opcodes ∧ (if op ∈ [0x30, 0x31, 0x32, 0x33] then pad ≤ 2 else pad = 0) ∧ (op ≠ 0x16 → rnd = 0)

theorem decodeFields_unknownOpcode {op : Nat} (h : op ∉ opcodes) (pad rnd : Nat) :
    decodeFields op pad rnd = .error .unknownOpcode := by
  simp only [opcodes, List.mem_cons, List.not_mem_nil, or_false, not_or] at h
  simp [decodeFields, h]

/-- Row by row of the map: the row's operand form accepts exactly the fields R92 allows it. -/
theorem decodeFields_ok_iff (op pad rnd : Nat) : (∃ i, decodeFields op pad rnd = .ok i) ↔ LegalFields op pad rnd := by
  by_cases hop : op ∈ opcodes
  · simp only [LegalFields, hop, true_and]
    fin_cases hop <;> simp [decodeFields, decodePlain_ok_iff, decodeRound_ok_iff, decodeMode_ok_iff]
  · simp [decodeFields_unknownOpcode hop, LegalFields, hop]

theorem decode_ok_iff (w : BitVec 16) :
    (∃ i, decode w = .ok i) ↔ fieldRsv w = 0 ∧ LegalFields (fieldOp w) (fieldPad w) (fieldRnd w) := by
  rw [← decodeFields_ok_iff, decode]
  by_cases hrsv : fieldRsv w = 0 <;> simp [hrsv]

end Sys2Proof

namespace Sys2Proof.Machine

/-- An illegal word raises IllegalCommand (R92). -/
theorem runWord_of_illegal {w : BitVec 16} (h : ∀ i, decode w ≠ .ok i) (s : State) :
    runWord w s = .next (s.setErr 6) := by
  unfold runWord
  cases hd : decode w with
  | ok i => exact absurd hd (h i)
  | error e => rfl

/-- Settles O3: `decode_ok_iff` with the fields read as in R91, and `runWord_of_illegal` for the words it excludes. -/
theorem strictDecoding : Obligations.StrictDecoding := by
  unfold Obligations.StrictDecoding
  intro w op pad rnd rsv mode legal
  have hlegal : (∃ i, decode w = .ok i) ↔ legal := by
    rw [decode_ok_iff, fieldOp_eq_mask, fieldPad_eq_shift_mask, fieldRnd_eq_shift_mask, fieldRsv_eq_shift_mask]
    exact Iff.rfl
  exact ⟨hlegal, fun s hillegal => runWord_of_illegal (fun i hi => hillegal (hlegal.mp ⟨i, hi⟩)) _⟩

end Sys2Proof.Machine
end

section
/-! The field GF(2^8) and its tables (spec/40_gf_tables.md R120 to R127): doubling in its forms, multiplication as an
algorithm and as the product of a commutative ring, SBOX as the affine map of the inverse, and the round constants. -/

namespace Sys2Proof.Machine

/-! Doubling (R120). -/

theorem shiftLeft_one_eq_ofNat (a : Byte) : a <<< 1 = BitVec.ofNat 8 (2 * a.toNat) := by
  apply BitVec.eq_of_toNat_eq
  rw [BitVec.toNat_shiftLeft, BitVec.toNat_ofNat, Nat.shiftLeft_eq, Nat.mul_comm]

/-- The low 8 bits of 0x11b are 0x1b, so the reduction acts on the byte a << 1. -/
theorem xtime_eq_shiftLeft_xor (a : Byte) : xtime a = (a <<< 1) ^^^ (if 0x80 ≤ a.toNat then 0x1b else 0x00) := by
  rw [shiftLeft_one_eq_ofNat, xtime]
  by_cases h : 0x80 ≤ a.toNat
  · have carry : ¬ 2 * a.toNat < 256 := by omega
    rw [if_neg carry, if_pos h, BitVec.ofNat_xor]
    rfl
  · have noCarry : 2 * a.toNat < 256 := by omega
    rw [if_pos noCarry, if_neg h]
    exact BitVec.xor_zero.symm

theorem xtime_toNat (a : Byte) :
    (xtime a).toNat = (if 256 ≤ 2 * a.toNat then (2 * a.toNat) ^^^ 0x11b else 2 * a.toNat) % 256 := by
  rw [xtime, BitVec.toNat_ofNat]
  by_cases carry : 256 ≤ 2 * a.toNat
  · rw [if_pos carry, if_neg (Nat.not_lt.mpr carry)]
  · rw [if_neg carry, if_pos (Nat.not_le.mp carry)]

/-- Settles O21: both forms, and the corner cases evaluated. -/
theorem xtimeDoubles : Obligations.XtimeDoubles := by
  unfold Obligations.XtimeDoubles
  exact ⟨xtime_eq_shiftLeft_xor, xtime_toNat, by decide⟩

/-! The n-fold doubling is linear and commutes with doubling. -/

theorem xtimes_succ (n : Nat) (a : Byte) : xtimes (n + 1) a = xtime (xtimes n a) := rfl

theorem xtimes_xor (n : Nat) (a b : Byte) : xtimes n (a ^^^ b) = xtimes n a ^^^ xtimes n b := by
  induction n with
  | zero => rfl
  | succ n ih => simp only [xtimes_succ, ih, xtime_xor]

theorem xtimes_xtime (n : Nat) (a : Byte) : xtimes n (xtime a) = xtime (xtimes n a) := by
  induction n with
  | zero => rfl
  | succ n ih => simp only [xtimes_succ, ih]

/-! The round constants (R127). -/

theorem rcon_succ {j : Nat} (hj : 1 ≤ j) : rcon (j + 1) = xtime (rcon j) := by
  obtain ⟨k, rfl⟩ : ∃ k, j = k + 1 := ⟨j - 1, by omega⟩
  exact xtimes_succ k 0x01

/-- Settles O26: `rcon_succ`, and the ten values evaluated (T40-7). -/
theorem roundConstants : Obligations.RoundConstants := by
  unfold Obligations.RoundConstants
  exact ⟨rfl, fun _ hj => rcon_succ hj, by decide⟩

/-! Multiplication (R121): the algorithm, and its behaviour under 0, doubling and exclusive-or in the first factor. -/

/-- After n rounds the algorithm's second variable is the n-fold doubling of a, which the model's fold adds. -/
theorem foldl_shiftAdd_eq (a b : Byte) (n : Nat) :
    (List.range n).foldl
        (fun (pa : Byte × Byte) i => (if b.getLsbD i then pa.1 ^^^ pa.2 else pa.1, xtime pa.2)) (0, a) =
      ((List.range n).foldl (fun p i => if b.getLsbD i then p ^^^ xtimes i a else p) 0, xtimes n a) := by
  induction n with
  | zero => rfl
  | succ n ih => simp only [List.range_succ, List.foldl_append, ih, List.foldl_cons, List.foldl_nil, xtimes_succ]

theorem gmul_eq_shiftAdd (a b : Byte) : gmul a b = ((List.range 8).foldl
    (fun (pa : Byte × Byte) i => (if b.getLsbD i then pa.1 ^^^ pa.2 else pa.1, xtime pa.2)) (0, a)).1 := by
  rw [foldl_shiftAdd_eq, gmul]

/-- Each round of the fold is linear in the partial product and the first factor. -/
theorem xor_gmul (a b c : Byte) : gmul (a ^^^ b) c = gmul a c ^^^ gmul b c := by
  unfold gmul
  refine List.foldl_hom₂ _ (· ^^^ ·) _ _ _ (0 : Byte) 0 fun p q i => ?_
  by_cases hi : c.getLsbD i
  · simp only [hi, if_true, xtimes_xor]; exact xor_regroup _ _ _ _
  · simp only [hi, if_false, Bool.false_eq_true]

theorem gmul_xtime_left (a b : Byte) : gmul (xtime a) b = xtime (gmul a b) := by
  unfold gmul
  refine List.foldl_hom xtime (init := (0 : Byte)) fun p i => ?_
  rw [apply_ite xtime, xtime_xor, xtimes_xtime]

theorem zero_gmul (b : Byte) : gmul 0 b = 0 := by
  simpa using xor_gmul b b b

/-- The bits of b select the powers of x that make up b. -/
theorem one_gmul (b : Byte) : gmul 1 b = b := by
  revert b; decide +kernel

/-! The algebra: each law of `gmul` is proved by induction on one factor, as built from 0 by doubling and adding 1
(Horner's scheme), from how `gmul` behaves under those two steps. -/

/-- One step of Horner's scheme, from the highest bit down. -/
theorem xtime_half (b : Byte) : xtime (b >>> 1) = if b.getLsbD 0 then b ^^^ 1 else b := by
  revert b; decide +kernel

/-- Doubling and adding 1 reach every byte: `xtime_half` builds b from b >>> 1. -/
theorem byte_induction {P : Byte → Prop} (zero : P 0) (double : ∀ a, P a → P (xtime a))
    (addOne : ∀ a, P a → P (a ^^^ 1)) (b : Byte) : P b := by
  by_cases hb : b = 0
  · exact hb ▸ zero
  · have half := double _ (byte_induction zero double addOne (b >>> 1))
    rw [xtime_half] at half
    by_cases hbit : b.getLsbD 0
    · rw [if_pos hbit] at half
      simpa using addOne _ half
    · rwa [if_neg hbit] at half
termination_by b.toNat
decreasing_by
  have hpos : b.toNat ≠ 0 := fun h => hb (BitVec.eq_of_toNat_eq h)
  rw [BitVec.toNat_ushiftRight, Nat.shiftRight_eq_div_pow]
  omega

theorem gmul_xor (a b c : Byte) : gmul a (b ^^^ c) = gmul a b ^^^ gmul a c := by
  induction a using byte_induction with
  | zero => simp only [zero_gmul]; exact BitVec.xor_zero.symm
  | double a ih => simp only [gmul_xtime_left, ih, xtime_xor]
  | addOne a ih => rw [xor_gmul, xor_gmul, xor_gmul, ih, one_gmul, one_gmul, one_gmul, xor_regroup]

theorem gmul_zero (a : Byte) : gmul a 0 = 0 := by
  simpa using gmul_xor a a a

theorem gmul_xtime_right (a b : Byte) : gmul a (xtime b) = xtime (gmul a b) := by
  induction a using byte_induction with
  | zero => rw [zero_gmul, zero_gmul, xtime_zero]
  | double a ih => rw [gmul_xtime_left, ih, gmul_xtime_left]
  | addOne a ih => rw [xor_gmul, xor_gmul, ih, one_gmul, one_gmul, xtime_xor]

/-- 1 is a unit on the right: both factors run through the same bytes. -/
theorem gmul_one (a : Byte) : gmul a 1 = a := by
  induction a using byte_induction with
  | zero => exact zero_gmul 1
  | double a ih => rw [gmul_xtime_left, ih]
  | addOne a ih => rw [xor_gmul, ih, one_gmul]

theorem gmul_comm (a b : Byte) : gmul a b = gmul b a := by
  induction b using byte_induction with
  | zero => rw [zero_gmul, gmul_zero]
  | double b ih => rw [gmul_xtime_left, gmul_xtime_right, ih]
  | addOne b ih => rw [xor_gmul, gmul_xor, ih, one_gmul, gmul_one]

theorem gmul_assoc (a b c : Byte) : gmul (gmul a b) c = gmul a (gmul b c) := by
  induction c using byte_induction with
  | zero => simp only [gmul_zero]
  | double c ih => simp only [gmul_xtime_right, ih]
  | addOne c ih => simp only [gmul_xor, gmul_one, ih]

/-- 2 is the doubled 1. -/
theorem gmul_two (a : Byte) : gmul a 2 = xtime a :=
  (gmul_xtime_right a 1).trans (congrArg xtime (gmul_one a))

/-- 3 = 2 ^ 1. -/
theorem gmul_three (a : Byte) : gmul a 3 = xtime a ^^^ a := by
  rw [show (3 : Byte) = 2 ^^^ 1 from rfl, gmul_xor, gmul_two, gmul_one]

/-- Settles O22: the algorithm, the laws proved by `byte_induction`, and the examples evaluated. -/
theorem gmulIsFieldMultiplication : Obligations.GmulIsFieldMultiplication := by
  unfold Obligations.GmulIsFieldMultiplication
  exact ⟨gmul_eq_shiftAdd, gmul_comm, gmul_assoc, gmul_xor,
    fun a => ⟨gmul_one a, gmul_zero a, gmul_two a, gmul_three a⟩, by decide⟩

/-! The inverse (R122): the search of `ginv` finds the one byte whose product with a is 1. -/

theorem inverse_unique {a b c : Byte} (hb : gmul a b = 1) (hc : gmul a c = 1) : b = c :=
  calc b = gmul (gmul a c) b := by rw [hc, one_gmul]
    _ = gmul c (gmul a b) := by rw [gmul_comm a c, gmul_assoc]
    _ = c := by rw [hb, gmul_one]

theorem mem_allBytes (b : Byte) : b ∈ allBytes :=
  List.mem_map.mpr ⟨b.toNat, List.mem_range.mpr b.isLt, BitVec.ofNat_toNat 8 b |>.trans (BitVec.setWidth_eq b)⟩

theorem ginv_eq_of_gmul_eq_one {a b : Byte} (h : gmul a b = 1) : ginv a = b := by
  unfold ginv
  cases hfind : allBytes.find? (fun c => gmul a c = 1) with
  | none => exact absurd (decide_eq_true h) (List.find?_eq_none.mp hfind b (mem_allBytes b))
  | some c =>
    have hc : gmul a c = 1 := of_decide_eq_true (List.find?_some (p := fun c => decide (gmul a c = 1)) hfind)
    exact inverse_unique hc h

theorem ginv_zero : ginv 0 = 0 := by
  have none_found : allBytes.find? (fun b => gmul 0 b = 1) = none := List.find?_eq_none.mpr fun b _ => by
    rw [zero_gmul]; decide
  rw [ginv, none_found, Option.getD_none]

/-! SBOX (R123): each table entry is the affine image of a byte whose product with a is 1, so of the inverse of a. -/

/-- The affine map of R123; `sboxFormula_eq_affine` ties it to the model's formula. -/
def affine (b : Byte) : Byte :=
  b ^^^ b.rotateLeft 1 ^^^ b.rotateLeft 2 ^^^ b.rotateLeft 3 ^^^ b.rotateLeft 4 ^^^ 0x63

theorem sboxFormula_eq_affine (a : Byte) : sboxFormula a = affine (ginv a) := rfl

/-- The inverse of `affine` (`affine_affineInv`). -/
def affineInv (y : Byte) : Byte := y.rotateLeft 1 ^^^ y.rotateLeft 3 ^^^ y.rotateLeft 6 ^^^ 0x05

theorem affine_affineInv (y : Byte) : affine (affineInv y) = y := by
  revert y; decide +kernel

theorem gmul_affineInv_sbox : ∀ a : Byte, a ≠ 0 → gmul a (affineInv (sbox a)) = 1 := by
  decide +kernel

theorem ginv_eq_affineInv_sbox (a : Byte) : ginv a = affineInv (sbox a) := by
  by_cases ha : a = 0
  · subst ha; exact ginv_zero
  · exact ginv_eq_of_gmul_eq_one (gmul_affineInv_sbox a ha)

theorem gmul_ginv {a : Byte} (ha : a ≠ 0) : gmul a (ginv a) = 1 := by
  rw [ginv_eq_affineInv_sbox]
  exact gmul_affineInv_sbox a ha

/-- The table is the formula. -/
theorem sbox_eq_sboxFormula (a : Byte) : sbox a = sboxFormula a := by
  rw [sboxFormula_eq_affine, ginv_eq_affineInv_sbox, affine_affineInv]

theorem invSbox_sbox (a : Byte) : invSbox (sbox a) = a := by
  revert a; decide +kernel

theorem sbox_invSbox (a : Byte) : sbox (invSbox a) = a := by
  revert a; decide +kernel

theorem sbox_bijective : Function.Bijective sbox :=
  Function.bijective_iff_has_inverse.mpr ⟨invSbox, invSbox_sbox, sbox_invSbox⟩

theorem sbox_ne_self (a : Byte) : sbox a ≠ a := by
  revert a; decide +kernel

/-- Settles O23: the byte b is `ginv a`, as in the rule. -/
theorem sboxIsAffineInverse : Obligations.SboxIsAffineInverse := by
  unfold Obligations.SboxIsAffineInverse
  refine ⟨fun a => ⟨ginv a, ?_, sbox_eq_sboxFormula a⟩, sbox_bijective, sbox_ne_self, by decide⟩
  by_cases ha : a = 0
  · rw [if_pos ha, ha, ginv_zero]
  · rw [if_neg ha]; exact gmul_ginv ha

end Sys2Proof.Machine
end

section
/-! The key schedule (spec/41_key_schedule.md R140 to R148): a byte sequence and its words, the loop of R142 word by
word, and KEYEXP. -/

namespace Sys2Proof.Machine

open Sys2Proof.Claims

/-! A byte sequence and its words (R12). -/

theorem length_flatMap_toBytes (ws : List Word) : (ws.flatMap Word.toBytes).length = 4 * ws.length := by
  induction ws with
  | nil => rfl
  | cons w ws ih =>
    rw [List.flatMap_cons, List.length_append, ih, List.length_cons, show w.toBytes.length = 4 from rfl]
    omega

theorem wordOf_toBytes_append_zero (w : Word) (p : List Byte) : wordOf (w.toBytes ++ p) 0 = w := rfl

theorem wordOf_toBytes_append_succ (w : Word) (p : List Byte) (i : Nat) :
    wordOf (w.toBytes ++ p) (i + 1) = wordOf p i := rfl

/-- Word i of the joined words is the i-th of them. -/
theorem wordOf_flatMap_toBytes (ws : List Word) (i : Nat) :
    wordOf (ws.flatMap Word.toBytes) i = ws.getD i zeroWord := by
  induction ws generalizing i with
  | nil => rfl
  | cons w ws ih =>
    rw [List.flatMap_cons]
    cases i with
    | zero => exact wordOf_toBytes_append_zero w _
    | succ i => rw [wordOf_toBytes_append_succ, ih, List.getD_cons_succ]

theorem getD_eq_getD_toBytes_wordOf (p : List Byte) (i : Nat) :
    p.getD i 0 = (wordOf p (i / 4)).toBytes.getD (i % 4) 0 := by
  obtain ⟨q, r, hr, rfl⟩ : ∃ q r, r < 4 ∧ i = 4 * q + r :=
    ⟨i / 4, i % 4, Nat.mod_lt i (by decide), (Nat.div_add_mod i 4).symm⟩
  have hdiv : (4 * q + r) / 4 = q := by omega
  have hmod : (4 * q + r) % 4 = r := by omega
  rw [hdiv, hmod]
  interval_cases r <;> rfl

/-! The loop (R142): each step appends one word, so the words already there stay and the recurrence reads only them. -/

@[simp] theorem length_expandWords (nk : Nat) (key : List Byte) (count : Nat) :
    (expandWords nk key count).length = nk + count := by
  induction count with
  | zero => simp [expandWords]
  | succ k ih => rw [expandWords, List.length_append, ih]; rfl

/-- The first Nk words are the key. -/
theorem getD_expandWords_key {nk i : Nat} (key : List Byte) (count : Nat) (hi : i < nk) :
    (expandWords nk key count).getD i zeroWord = wordOf key i := by
  induction count with
  | zero => simp [expandWords, hi]
  | succ k ih =>
    have earlier : i < (expandWords nk key k).length := by rw [length_expandWords]; omega
    rw [expandWords, List.getD_append _ _ _ _ earlier, ih]

/-- Word i depends on words before it only, so a word appended at i or later does not change it. -/
theorem nextWord_append {nk i : Nat} {ws : List Word} (w : Word) (hnk : 0 < nk) (hi : 0 < i) (hlen : i ≤ ws.length) :
    nextWord nk (ws ++ [w]) i = nextWord nk ws i := by
  rw [nextWord, List.getD_append _ _ _ (i - nk) (by omega), List.getD_append _ _ _ (i - 1) (by omega), nextWord]

/-- Every later word follows the recurrence. -/
theorem getD_expandWords_recurrence {nk i count : Nat} (key : List Byte) (hnk : 0 < nk) (hi : nk ≤ i)
    (hlt : i < nk + count) :
    (expandWords nk key count).getD i zeroWord = nextWord nk (expandWords nk key count) i := by
  induction count with
  | zero => omega
  | succ k ih =>
    have hlen : (expandWords nk key k).length = nk + k := length_expandWords nk key k
    rw [expandWords, nextWord_append _ hnk (by omega) (by omega)]
    by_cases hlast : i = nk + k
    · subst hlast
      rw [List.getD_append_right _ _ _ _ hlen.le, hlen, Nat.sub_self, List.getD_cons_zero]
    · rw [List.getD_append _ _ _ _ (by omega), ih (by omega)]

/-! The schedule (R140, R142). -/

theorem wordOf_scheduleOf (key : List Byte) (i : Nat) :
    wordOf (scheduleOf key) i =
      (expandWords (keyWordCount key) key (4 * (roundCount key + 1) - keyWordCount key)).getD i zeroWord :=
  wordOf_flatMap_toBytes _ i

theorem length_scheduleOf (key : List Byte) : (scheduleOf key).length = 16 * (roundCount key + 1) := by
  rw [scheduleOf, length_flatMap_toBytes, length_expandWords, roundCount]
  omega

theorem wordOf_scheduleOf_key {key : List Byte} {i : Nat} (hi : i < keyWordCount key) :
    wordOf (scheduleOf key) i = wordOf key i := by
  rw [wordOf_scheduleOf, getD_expandWords_key _ _ hi]

/-- The schedule starts with the bytes of a key of whole words. -/
theorem getD_scheduleOf_key {key : List Byte} {i : Nat} (hwhole : key.length = 4 * keyWordCount key)
    (hi : i < key.length) : (scheduleOf key).getD i 0 = key.getD i 0 := by
  have hword : i / 4 < keyWordCount key := by omega
  rw [getD_eq_getD_toBytes_wordOf, wordOf_scheduleOf_key hword, ← getD_eq_getD_toBytes_wordOf]

theorem wordOf_scheduleOf_recurrence {key : List Byte} {i : Nat} (hnk : 0 < keyWordCount key)
    (hi : keyWordCount key ≤ i) (hlt : i < 4 * (roundCount key + 1)) :
    wordOf (scheduleOf key) i = (wordOf (scheduleOf key) (i - keyWordCount key)).xor
      (scheduleCore (keyWordCount key) i (wordOf (scheduleOf key) (i - 1))) := by
  simp only [wordOf_scheduleOf]
  rw [getD_expandWords_recurrence key hnk hi (by omega), nextWord]

/-- Settles O27: the length, the key's bytes at the start, and the recurrence, whose two branches are `scheduleCore`. -/
theorem keyExpansionRecurrence : Obligations.KeyExpansionRecurrence := by
  unfold Obligations.KeyExpansionRecurrence
  intro key hkey
  have hwhole : key.length = 4 * keyWordCount key := by unfold keyWordCount; omega
  have hnk : 0 < keyWordCount key := by omega
  exact ⟨rfl, length_scheduleOf key, fun i hi => getD_scheduleOf_key hwhole hi,
    fun i hi hlt => wordOf_scheduleOf_recurrence hnk hi hlt⟩

/-! KEYEXP (R143, R147, R148). -/

theorem keyLengthOk_iff {s : State} : keyLengthOk s = true ↔ LegalKeyLen s := by
  simp [keyLengthOk, LegalKeyLen, or_assoc]

theorem keyexpBody_of_illegal {s : State} (h : ¬ LegalKeyLen s) : keyexpBody s = .error .invalidKeyLength := by
  have hkey : keyLengthOk s = false := Bool.eq_false_iff.mpr (mt keyLengthOk_iff.mp h)
  exact bind_eq_error.mpr (.inl (keyOperand_eq_error.mpr ⟨hkey, rfl⟩))

/-- RK after KEYEXP, byte by byte (R147). -/
theorem byteAt_rkOf_scheduleOf (key : List Byte) {i : Nat} (hi : i < 240) :
    byteAt (rkOf (scheduleOf key)) i = if i < 16 * (roundCount key + 1) then (scheduleOf key).getD i 0 else 0 := by
  rw [rkOf, byteAt_ofBytes _ _ hi, ← length_scheduleOf]
  split
  · rfl
  · next h => exact List.getD_eq_default _ _ (Nat.not_lt.mp h)

/-- A legal key has at most 14 rounds, so NR holds the round count. -/
theorem toNat_ofNat_roundCount {s : State} (h : LegalKeyLen s) :
    (BitVec.ofNat 8 (roundCount (keyBytes s))).toNat = roundCount (keyBytes s) := by
  obtain ⟨-, hlen⟩ := keyBytes_length (keyLengthOk_iff.mpr h)
  apply toNat_ofNat_byte
  unfold roundCount keyWordCount
  omega

/-- Settles O28: `keyexpBody_eq_ok` gives the state after a legal key, `keyexpBody_of_illegal` the failure. -/
theorem keyexpWritesSchedule : Obligations.KeyexpWritesSchedule := by
  unfold Obligations.KeyexpWritesSchedule
  refine ⟨rfl, fun s => ⟨fun h => ?_, fun h => ?_⟩⟩
  · have hbody := keyexpBody_eq_ok.mpr ⟨keyLengthOk_iff.mpr h, rfl⟩
    refine ⟨_, by rw [exec_eq_deliver, commandBody, hbody, deliver_ok], fun i hi => ?_, ?_, ?_, ?_, ?_, rfl⟩
    · exact byteAt_rkOf_scheduleOf (keyBytes s) hi
    · exact toNat_ofNat_roundCount h
    · rw [schedValid_setErr, schedValid_setSchedValid]
    · exact err_setErr _ _
    · rw [setErr_status, setSchedValid_status, statusReserved_statusWithErr, statusReserved_statusWithSchedValid]
  · rw [exec_eq_deliver, commandBody, keyexpBody_of_illegal h, deliver_error]
    rfl

end Sys2Proof.Machine
end

section
/-! The commands on BLK (spec/42_block_transform.md R156 to R176): from a command's body to its outcome, each round step
byte by byte, and the commands. -/

namespace Sys2Proof.Machine

open Sys2Proof.Claims

/-! From a command's body to the command. -/

theorem exec_of_commandBody_ok {i : Instr} {s t : State} (h : commandBody i s = .ok t) :
    exec i s = .next (t.setErr 0) := by
  rw [exec_eq_deliver, h, deliver_ok]

theorem exec_of_commandBody_error {i : Instr} {s : State} {e : ErrKind} (h : commandBody i s = .error e) :
    exec i s = .next (s.setErr (errCode e)) := by
  rw [exec_eq_deliver, h, deliver_error]

theorem onlyBlkAndOk_setErr_zero (s : State) (b : Block) : OnlyBlkAndOk s (State.setErr { s with blk := b } 0) :=
  ⟨rfl, err_setErr _ _, schedValid_setErr _ _, statusReserved_statusWithErr _ _⟩

/-! SubBytes and InvSubBytes (R156, R157). -/

theorem byteAt_subBytes (b : Block) {i : Nat} (hi : i < 16) : byteAt (subBytes b) i = sbox (byteAt b i) :=
  byteAt_mapBytes sbox b hi

theorem byteAt_invSubBytes (b : Block) {i : Nat} (hi : i < 16) : byteAt (invSubBytes b) i = invSbox (byteAt b i) :=
  byteAt_mapBytes invSbox b hi

/-- Settles O29: `byteAt_subBytes` and `byteAt_invSubBytes`. -/
theorem substitutionCommands : Obligations.SubstitutionCommands := by
  unfold Obligations.SubstitutionCommands
  refine ⟨rfl, rfl, fun s => ⟨?_, ?_⟩⟩
  · exact ⟨_, exec_of_commandBody_ok rfl, onlyBlkAndOk_setErr_zero s _, fun i hi => byteAt_subBytes s.blk hi⟩
  · exact ⟨_, exec_of_commandBody_ok rfl, onlyBlkAndOk_setErr_zero s _, fun i hi => byteAt_invSubBytes s.blk hi⟩

/-! A byte's row and column (spec/00_scope.md R11): byte r + 4c is in row r and column c. -/

theorem row_of_index {r : Nat} (hr : r < 4) (c : Nat) : (r + 4 * c) % 4 = r := by omega

theorem column_of_index {r : Nat} (hr : r < 4) (c : Nat) : (r + 4 * c) / 4 = c := by omega

/-! ShiftRows and InvShiftRows (R158, R159). -/

theorem byteAt_shiftRows (b : Block) {r c : Nat} (hr : r < 4) (hc : c < 4) :
    byteAt (shiftRows b) (r + 4 * c) = byteAt b (r + 4 * ((c + r) % 4)) := by
  rw [shiftRows, byteAt_tabulate _ _ (by omega), row_of_index hr, column_of_index hr]

theorem byteAt_invShiftRows (b : Block) {r c : Nat} (hr : r < 4) (hc : c < 4) :
    byteAt (invShiftRows b) (r + 4 * ((c + r) % 4)) = byteAt b (r + 4 * c) := by
  have source : ((c + r) % 4 + 4 - r) % 4 = c := by omega
  rw [invShiftRows, byteAt_tabulate _ _ (by omega), row_of_index hr, column_of_index hr, source]

/-- Settles O30: `byteAt_shiftRows` and `byteAt_invShiftRows`. -/
theorem rowShiftCommands : Obligations.RowShiftCommands := by
  unfold Obligations.RowShiftCommands
  refine ⟨rfl, rfl, fun s => ⟨?_, ?_⟩⟩
  · exact ⟨_, exec_of_commandBody_ok rfl, onlyBlkAndOk_setErr_zero s _,
      fun r c hr hc => byteAt_shiftRows s.blk hr hc⟩
  · exact ⟨_, exec_of_commandBody_ok rfl, onlyBlkAndOk_setErr_zero s _,
      fun r c hr hc => byteAt_invShiftRows s.blk hr hc⟩

/-! Columns as words. -/

theorem getD_eq_getD_column (p : List Byte) {r : Nat} (hr : r < 4) (c : Nat) :
    p.getD (r + 4 * c) 0 = (wordOf p c).toBytes.getD r 0 := by
  rw [getD_eq_getD_toBytes_wordOf, row_of_index hr, column_of_index hr]

theorem byteAt_mapColumns (f : Word → Word) (b : Block) {r c : Nat} (hr : r < 4) (hc : c < 4) :
    byteAt (mapColumns f b) (r + 4 * c) = (f (wordOf b.toList c)).toBytes.getD r 0 := by
  have words : (List.range 4).flatMap (fun c => (f (wordOf b.toList c)).toBytes) =
      ((List.range 4).map (fun c => f (wordOf b.toList c))).flatMap Word.toBytes := by rw [List.flatMap_map]
  rw [mapColumns, byteAt_ofBytes _ _ (by omega), words, getD_eq_getD_column _ hr, wordOf_flatMap_toBytes]
  simp [hc]

/-! MixColumns and InvMixColumns (R160, R161): both matrices are circulant. -/

/-- The product of the circulant matrix with first row (p, q, u, v) and a column, each entry given as the multiplication
by it; `mixColumn_eq_circulant` and `invMixColumn_eq_circulant` tie it to the model. -/
def circulant (p q u v : Byte → Byte) (t : Word) : Word :=
  ⟨p t.b0 ^^^ q t.b1 ^^^ u t.b2 ^^^ v t.b3,
   v t.b0 ^^^ p t.b1 ^^^ q t.b2 ^^^ u t.b3,
   u t.b0 ^^^ v t.b1 ^^^ p t.b2 ^^^ q t.b3,
   q t.b0 ^^^ u t.b1 ^^^ v t.b2 ^^^ p t.b3⟩

theorem mixColumn_eq_circulant : mixColumn = circulant mul2 mul3 id id := rfl

theorem invMixColumn_eq_circulant : invMixColumn = circulant mul14 mul11 mul13 mul9 := rfl

/-- Row r is the first row applied to the column rotated by r; only the order of the four terms differs. -/
theorem getD_toBytes_circulant (p q u v : Byte → Byte) (t : Word) {r : Nat} (hr : r < 4) :
    (circulant p q u v t).toBytes.getD r 0 =
      p (t.toBytes.getD ((r + 0) % 4) 0) ^^^ q (t.toBytes.getD ((r + 1) % 4) 0) ^^^
        u (t.toBytes.getD ((r + 2) % 4) 0) ^^^ v (t.toBytes.getD ((r + 3) % 4) 0) := by
  have rotate : ∀ a b c d : Byte, a ^^^ b ^^^ c ^^^ d = b ^^^ c ^^^ d ^^^ a := fun a b c d => by ac_rfl
  match r with
  | 0 => rfl
  | 1 => exact rotate _ _ _ _
  | 2 => exact (rotate _ _ _ _).trans (rotate _ _ _ _)
  | 3 => exact (rotate _ _ _ _).symm

theorem byteAt_mapColumns_circulant (p q u v : Byte → Byte) (b : Block) {r c : Nat} (hr : r < 4) (hc : c < 4) :
    byteAt (mapColumns (circulant p q u v) b) (r + 4 * c) =
      p (byteAt b ((r + 0) % 4 + 4 * c)) ^^^ q (byteAt b ((r + 1) % 4 + 4 * c)) ^^^
        u (byteAt b ((r + 2) % 4 + 4 * c)) ^^^ v (byteAt b ((r + 3) % 4 + 4 * c)) := by
  have entry : ∀ k, byteAt b (k % 4 + 4 * c) = (wordOf b.toList c).toBytes.getD (k % 4) 0 := fun k =>
    getD_eq_getD_column b.toList (Nat.mod_lt k (by decide)) c
  rw [byteAt_mapColumns _ b hr hc, getD_toBytes_circulant p q u v _ hr, entry, entry, entry, entry]

/-! The multiplication tables (R125): each constant is a sum of 1, 2, 4 and 8. -/

theorem gmul_four (a : Byte) : gmul a 4 = xtime (xtime a) :=
  (gmul_xtime_right a 2).trans (congrArg xtime (gmul_two a))

theorem gmul_eight (a : Byte) : gmul a 8 = xtime (xtime (xtime a)) :=
  (gmul_xtime_right a 4).trans (congrArg xtime (gmul_four a))

theorem mul2_eq_gmul (a : Byte) : mul2 a = gmul a 2 := (gmul_two a).symm

theorem mul3_eq_gmul (a : Byte) : mul3 a = gmul a 3 := (gmul_three a).symm

theorem mul9_eq_gmul (a : Byte) : mul9 a = gmul a 9 := by
  rw [mul9, show (9 : Byte) = 8 ^^^ 1 from rfl, gmul_xor, gmul_eight, gmul_one]

theorem mul11_eq_gmul (a : Byte) : mul11 a = gmul a 11 := by
  rw [mul11, show (11 : Byte) = 8 ^^^ 2 ^^^ 1 from rfl, gmul_xor, gmul_xor, gmul_eight, gmul_two, gmul_one]

theorem mul13_eq_gmul (a : Byte) : mul13 a = gmul a 13 := by
  rw [mul13, show (13 : Byte) = 8 ^^^ 4 ^^^ 1 from rfl, gmul_xor, gmul_xor, gmul_eight, gmul_four, gmul_one]

theorem mul14_eq_gmul (a : Byte) : mul14 a = gmul a 14 := by
  rw [mul14, show (14 : Byte) = 8 ^^^ 4 ^^^ 2 from rfl, gmul_xor, gmul_xor, gmul_eight, gmul_four, gmul_two]

theorem byteAt_mixColumns (b : Block) {r c : Nat} (hr : r < 4) (hc : c < 4) :
    byteAt (mixColumns b) (r + 4 * c) =
      gmul (byteAt b ((r + 0) % 4 + 4 * c)) 2 ^^^ gmul (byteAt b ((r + 1) % 4 + 4 * c)) 3 ^^^
        byteAt b ((r + 2) % 4 + 4 * c) ^^^ byteAt b ((r + 3) % 4 + 4 * c) := by
  rw [mixColumns, mixColumn_eq_circulant, byteAt_mapColumns_circulant _ _ _ _ b hr hc, mul2_eq_gmul, mul3_eq_gmul]
  rfl

theorem byteAt_invMixColumns (b : Block) {r c : Nat} (hr : r < 4) (hc : c < 4) :
    byteAt (invMixColumns b) (r + 4 * c) =
      gmul (byteAt b ((r + 0) % 4 + 4 * c)) 14 ^^^ gmul (byteAt b ((r + 1) % 4 + 4 * c)) 11 ^^^
        gmul (byteAt b ((r + 2) % 4 + 4 * c)) 13 ^^^ gmul (byteAt b ((r + 3) % 4 + 4 * c)) 9 := by
  rw [invMixColumns, invMixColumn_eq_circulant, byteAt_mapColumns_circulant _ _ _ _ b hr hc, mul14_eq_gmul,
    mul11_eq_gmul, mul13_eq_gmul, mul9_eq_gmul]

/-- Settles O31: `byteAt_mixColumns` and `byteAt_invMixColumns`. -/
theorem mixColumnCommands : Obligations.MixColumnCommands := by
  unfold Obligations.MixColumnCommands
  refine ⟨rfl, rfl, fun s => ⟨?_, ?_⟩⟩
  · exact ⟨_, exec_of_commandBody_ok rfl, onlyBlkAndOk_setErr_zero s _,
      fun r c hr hc => byteAt_mixColumns s.blk hr hc⟩
  · exact ⟨_, exec_of_commandBody_ok rfl, onlyBlkAndOk_setErr_zero s _,
      fun r c hr hc => byteAt_invMixColumns s.blk hr hc⟩

/-! AddRoundKey (R162) and its command (R170). -/

theorem byteAt_roundKey (w : List Byte) (r : Nat) {i : Nat} (hi : i < 16) :
    byteAt (roundKey w r) i = w.getD (16 * r + i) 0 := by
  rw [roundKey, byteAt_ofBytes _ _ hi, List.getD_eq_getElem?_getD, List.getElem?_drop, List.getD_eq_getElem?_getD]

theorem byteAt_addRoundKey (b : Block) (w : List Byte) (r : Nat) {i : Nat} (hi : i < 16) :
    byteAt (addRoundKey b w r) i = byteAt b i ^^^ w.getD (16 * r + i) 0 := by
  rw [addRoundKey, byteAt_xorBytes _ _ hi, byteAt_roundKey w r hi]

/-- The word of ADDROUNDKEY (R93, R95) is the encoder's, whose fields `EncodeFields.addroundkey` gives. -/
theorem decode_addroundkey_word {r : Nat} (hr : r < 16) :
    decode (BitVec.ofNat 16 (0x0016 + 1024 * r)) = .ok (.addroundkey r) := by
  have word : encode (.addroundkey r) = BitVec.ofNat 16 (0x0016 + 1024 * r) := rfl
  obtain ⟨hop, hpad, hrnd, hrsv⟩ := Laws.EncodeFields.addroundkey r (decide_eq_true hr)
  rw [← word, decode, hrsv, hop, hpad, hrnd]
  rfl

/-- NoSchedule is the first check (R170). -/
theorem addroundkeyBody_of_noSchedule {s : State} (h : s.schedValid = false) (r : Nat) :
    addroundkeyBody r s = .error .noSchedule :=
  bind_eq_error.mpr (.inl (scheduleOperand_eq_error.mpr ⟨h, rfl⟩))

theorem addroundkeyBody_of_round_above {s : State} {r : Nat} (h : s.schedValid = true) (hr : s.nr.toNat < r) :
    addroundkeyBody r s = .error .illegalCommand := by
  have check : require (r ≤ s.nr.toNat) .illegalCommand = .error .illegalCommand :=
    require_eq_error.mpr ⟨decide_eq_false (Nat.not_le.mpr hr), rfl⟩
  exact bind_eq_error.mpr (.inr ⟨_, scheduleOperand_eq_ok.mpr ⟨h, rfl⟩, bind_eq_error.mpr (.inl check)⟩)

/-- Settles O32: `addroundkeyBody_eq_ok` for the effect, one lemma for each of the two errors. -/
theorem addRoundKeyCommand : Obligations.AddRoundKeyCommand := by
  unfold Obligations.AddRoundKeyCommand
  refine ⟨fun r hr => decode_addroundkey_word hr, fun s r => ⟨fun h hr => ?_, fun h => ?_, fun h hr => ?_⟩⟩
  · have hbody := addroundkeyBody_eq_ok.mpr ⟨h, hr, rfl⟩
    exact ⟨_, exec_of_commandBody_ok hbody, onlyBlkAndOk_setErr_zero s _,
      fun i hi => byteAt_addRoundKey s.blk (scheduleBytes s) r hi⟩
  · exact exec_of_commandBody_error (i := .addroundkey r) (addroundkeyBody_of_noSchedule h r)
  · exact exec_of_commandBody_error (i := .addroundkey r) (addroundkeyBody_of_round_above h hr)

/-! ENCBLK and DECBLK (R172, R174). -/

theorem blockBody_of_noSchedule {s : State} (h : s.schedValid = false) (f : Block → List Byte → Nat → Block) :
    blockBody f s = .error .noSchedule :=
  bind_eq_error.mpr (.inl (scheduleOperand_eq_error.mpr ⟨h, rfl⟩))

/-- Settles O33: `blockBody_eq_ok` with a schedule, `blockBody_of_noSchedule` without. -/
theorem blockCommands : Obligations.BlockCommands := by
  unfold Obligations.BlockCommands
  refine ⟨rfl, rfl, fun s => ⟨fun h => ⟨?_, ?_⟩, fun h => ⟨?_, ?_⟩⟩⟩
  · exact ⟨_, exec_of_commandBody_ok (blockBody_eq_ok.mpr ⟨h, rfl⟩), onlyBlkAndOk_setErr_zero s _, rfl⟩
  · exact ⟨_, exec_of_commandBody_ok (blockBody_eq_ok.mpr ⟨h, rfl⟩), onlyBlkAndOk_setErr_zero s _, rfl⟩
  · exact exec_of_commandBody_error (i := .encblk) (blockBody_of_noSchedule h encryptBlock)
  · exact exec_of_commandBody_error (i := .decblk) (blockBody_of_noSchedule h decryptBlock)

end Sys2Proof.Machine
end

section
/-! The padding commands (spec/43_padding.md R190 to R199): what the unpadding functions accept, the room DBUF must have,
and the four commands. -/

namespace Sys2Proof.Machine

open Sys2Proof.Claims

/-! Room in DBUF (R268). -/

theorem fitsBuffer_iff {s : State} {n : Nat} : fitsBuffer s.params n = true ↔ Fits s n := by
  unfold fitsBuffer Fits
  split <;> simp_all

theorem requireFits_of_not_fits {s : State} {n : Nat} (h : ¬ Fits s n) : requireFits s n = .error .capacityExceeded :=
  requireFits_eq_error.mpr ⟨Bool.eq_false_iff.mpr (mt fitsBuffer_iff.mp h), rfl⟩

theorem fits_of_le {s : State} {a b : Nat} (hab : a ≤ b) (h : Fits s b) : Fits s a :=
  fun m hm => hab.trans (h m hm)

theorem onlyBufferAndOk_setErr_zero (s : State) (m : Memory) (n : Nat) :
    OnlyBufferAndOk s (State.setErr { s with dbuf := m, dlen := n } 0) :=
  ⟨rfl, err_setErr _ _, schedValid_setErr _ _, statusReserved_statusWithErr _ _⟩

/-! The pad bytes (R190, R192). -/

@[simp] theorem pkcs7Fill_length (n : Nat) : (pkcs7Fill n).length = n := List.length_replicate

theorem m2Fill_length {n : Nat} (hn : 0 < n) : (m2Fill n).length = n := by
  rw [m2Fill, List.length_cons, List.length_replicate, Nat.sub_add_cancel hn]

theorem getD_pkcs7Fill {n k : Nat} (hk : k < n) : (pkcs7Fill n).getD k 0 = BitVec.ofNat 8 n :=
  List.getD_replicate _ hk

theorem getD_m2Fill_succ (n k : Nat) : (m2Fill n).getD (k + 1) 0 = 0x00 := by
  simp [m2Fill]

/-- Some byte is always appended: a remainder is below its modulus. -/
theorem padCount_pos {s : State} (hb : s.padbs ≠ 0) : 0 < padCount s.dlen s.padbs.toNat := by
  have hbs : 0 < s.padbs.toNat := Nat.pos_of_ne_zero fun h => hb (BitVec.eq_of_toNat_eq h)
  exact Nat.sub_pos_of_lt (Nat.mod_lt _ hbs)

/-! The pad commands: what both share, for any bytes `fill` to append (R193, R197). -/

theorem padBody_of_padbs_zero {s : State} (hb : s.padbs = 0) (fill : Nat → List Byte) :
    padBody fill s = .error .invalidBlockSize :=
  bind_eq_error.mpr (.inl (blockSizeOperand_eq_error.mpr ⟨hb, rfl⟩))

/-- The room on entry and the room for the result fail with the same error. -/
theorem padBody_of_not_fits {s : State} (hb : s.padbs ≠ 0) (h : ¬ Fits s (s.dlen + padCount s.dlen s.padbs.toNat))
    (fill : Nat → List Byte) : padBody fill s = .error .capacityExceeded := by
  refine bind_eq_error.mpr (.inr ⟨_, blockSizeOperand_eq_ok.mpr ⟨hb, rfl⟩, bind_eq_error.mpr ?_⟩)
  by_cases hentry : Fits s s.dlen
  · exact .inr ⟨(), requireFits_eq_ok.mpr (fitsBuffer_iff.mpr hentry),
      bind_eq_error.mpr (.inl (requireFits_of_not_fits h))⟩
  · exact .inl (requireFits_of_not_fits hentry)

/-- A pad command that passes its checks appends the bytes of `fill` and keeps all others. -/
theorem exec_of_padBody {i : Instr} {fill : Nat → List Byte} {s : State} {n : Nat}
    (hi : commandBody i s = padBody fill s) (hm : s.dbuf.wf) (hn : n = padCount s.dlen s.padbs.toNat)
    (hlen : (fill n).length = n) (hb : s.padbs ≠ 0) (hfit : Fits s (s.dlen + n)) :
    ∃ t, exec i s = .next t ∧ OnlyBufferAndOk s t ∧ t.dlen = s.dlen + n ∧
      (∀ k, k < n → t.dbuf.read (s.dlen + k) = (fill n).getD k 0) ∧
      (∀ a, a < s.dlen ∨ s.dlen + n ≤ a → t.dbuf.read a = s.dbuf.read a) := by
  subst hn
  have hbody := padBody_eq_ok (fill := fill).mpr
    ⟨hb, fitsBuffer_iff.mpr (fits_of_le (Nat.le_add_right _ _) hfit), fitsBuffer_iff.mpr hfit, rfl⟩
  refine ⟨_, exec_of_commandBody_ok (hi.trans hbody), onlyBufferAndOk_setErr_zero s _ _, rfl,
    fun k hk => ?_, fun a ha => ?_⟩
  · exact read_writeBytes_inside s.dbuf hm s.dlen _ (by rwa [hlen])
  · exact read_writeBytes_outside s.dbuf s.dlen _ (by rwa [hlen])

/-- Settles O38: `exec_of_padBody` with the PKCS#7 bytes, each of which is n because n is at most PADBS, a byte. -/
theorem pkcs7padAppends : Obligations.Pkcs7padAppends := by
  unfold Obligations.Pkcs7padAppends
  refine ⟨rfl, fun s hm => ⟨fun hb hfit => ?_, fun hb => ?_, fun hb hfit => ?_⟩⟩
  · obtain ⟨t, hexec, honly, hdlen, hpad, hkeep⟩ :=
      exec_of_padBody (i := .pkcs7pad) rfl hm rfl (pkcs7Fill_length _) hb hfit
    refine ⟨t, hexec, honly, hdlen, fun a hle hlt => ?_, hkeep⟩
    obtain ⟨k, rfl⟩ := Nat.exists_eq_add_of_le hle
    have hk : k < padCount s.dlen s.padbs.toNat := Nat.lt_of_add_lt_add_left hlt
    rw [hpad k hk, getD_pkcs7Fill hk]
    exact toNat_ofNat_byte (Nat.lt_of_le_of_lt (Nat.sub_le _ _) s.padbs.isLt)
  · exact exec_of_commandBody_error (i := .pkcs7pad) (padBody_of_padbs_zero hb pkcs7Fill)
  · exact exec_of_commandBody_error (i := .pkcs7pad) (padBody_of_not_fits hb hfit pkcs7Fill)

/-- Settles O39: `exec_of_padBody` with the Method 2 bytes, the marker first and zeros after it. -/
theorem m2padAppends : Obligations.M2padAppends := by
  unfold Obligations.M2padAppends
  refine ⟨rfl, fun s hm => ⟨fun hb hfit => ?_, fun hb => ?_, fun hb hfit => ?_⟩⟩
  · obtain ⟨t, hexec, honly, hdlen, hpad, hkeep⟩ :=
      exec_of_padBody (i := .m2pad) rfl hm rfl (m2Fill_length (padCount_pos hb)) hb hfit
    refine ⟨t, hexec, honly, hdlen, hpad 0 (padCount_pos hb), fun a hlt hlt' => ?_, hkeep⟩
    obtain ⟨k, rfl⟩ := Nat.exists_eq_add_of_lt hlt
    rw [Nat.add_assoc] at hlt' ⊢
    exact (hpad (k + 1) (Nat.lt_of_add_lt_add_left hlt')).trans (getD_m2Fill_succ _ k)
  · exact exec_of_commandBody_error (i := .m2pad) (padBody_of_padbs_zero hb m2Fill)
  · exact exec_of_commandBody_error (i := .m2pad) (padBody_of_not_fits hb hfit m2Fill)

/-! The unpadding functions (R191, R194): each accepts exactly the sequences that end in the pad bytes of their scheme. -/

theorem pkcs7Unpad_eq_ok {m r : List Byte} :
    pkcs7Unpad m = .ok r ↔ ∃ n, 0 < n ∧ n < 256 ∧ m = r ++ pkcs7Fill n := by
  constructor
  · intro h
    unfold pkcs7Unpad at h
    split at h
    · cases h
    · next b _ =>
      simp only at h
      split_ifs at h with hbad hall
      obtain ⟨hpos, hle⟩ : 0 < b.toNat ∧ b.toNat ≤ m.length := by omega
      have hdrop : m.drop (m.length - b.toNat) = List.replicate b.toNat b := by
        refine List.eq_replicate_iff.mpr ⟨by rw [List.length_drop]; omega, fun c hc => ?_⟩
        exact of_decide_eq_true (List.all_eq_true.mp hall c hc)
      refine ⟨b.toNat, hpos, b.isLt, ?_⟩
      rw [← Except.ok.inj h, pkcs7Fill, BitVec.ofNat_toNat, BitVec.setWidth_eq, ← hdrop, List.take_append_drop]
  · rintro ⟨n, hpos, hn, rfl⟩
    have hlast : (r ++ pkcs7Fill n).getLast? = some (BitVec.ofNat 8 n) := by
      simp [pkcs7Fill, List.getLast?_append, List.getLast?_replicate, hpos.ne']
    have hbyte := toNat_ofNat_byte hn
    have hcount : ¬ (n = 0 ∨ (r ++ pkcs7Fill n).length < n) := by simp; omega
    simp only [pkcs7Unpad, hlast, hbyte, if_neg hcount]
    simp [pkcs7Fill]

theorem m2Unpad_eq_ok {m r : List Byte} : m2Unpad m = .ok r ↔ ∃ n, 0 < n ∧ m = r ++ m2Fill n := by
  constructor
  · intro h
    unfold m2Unpad at h
    split at h
    · cases h
    · next b rest hscan =>
      split_ifs at h with hb
      obtain ⟨k, hzeros⟩ : ∃ k, m.reverse.takeWhile (fun c => c = 0x00) = List.replicate k 0x00 :=
        ⟨_, List.eq_replicate_iff.mpr ⟨rfl, fun c hc => by simpa using List.mem_takeWhile_imp hc⟩⟩
      have hsplit := List.takeWhile_append_dropWhile (p := fun c : Byte => decide (c = 0x00)) (l := m.reverse)
      rw [hscan, hzeros, hb] at hsplit
      refine ⟨k + 1, Nat.succ_pos k, ?_⟩
      rw [← Except.ok.inj h, ← List.reverse_reverse m, ← hsplit]
      simp [m2Fill]
  · rintro ⟨n, -, rfl⟩
    simp [m2Unpad, m2Fill]

theorem pkcs7Unpad_eq_error {m : List Byte} {e : ErrKind} (h : pkcs7Unpad m = .error e) : e = .invalidPadding := by
  unfold pkcs7Unpad at h
  split at h
  · exact (Except.error.inj h).symm
  · simp only at h
    split_ifs at h <;> exact (Except.error.inj h).symm

theorem m2Unpad_eq_error {m : List Byte} {e : ErrKind} (h : m2Unpad m = .error e) : e = .invalidPadding := by
  unfold m2Unpad at h
  split at h
  · exact (Except.error.inj h).symm
  · split_ifs at h
    exact (Except.error.inj h).symm

/-! The unpad commands: what both share, for any unpadding function f (R195, R199). -/

theorem unpadBody_of_not_fits {s : State} (h : ¬ Fits s s.dlen) (f : List Byte → Except ErrKind (List Byte)) :
    unpadBody f s = .error .capacityExceeded :=
  bind_eq_error.mpr (.inl (requireFits_of_not_fits h))

theorem unpadBody_of_not_ok {s : State} {f : List Byte → Except ErrKind (List Byte)} (hfit : Fits s s.dlen)
    (herr : ∀ {m e}, f m = .error e → e = .invalidPadding) (h : ∀ r, f (message s) ≠ .ok r) :
    unpadBody f s = .error .invalidPadding := by
  refine bind_eq_error.mpr (.inr ⟨(), requireFits_eq_ok.mpr (fitsBuffer_iff.mpr hfit), bind_eq_error.mpr (.inl ?_)⟩)
  cases hf : f (message s) with
  | ok r => exact absurd hf (h r)
  | error e => rw [herr hf]

/-- An unpad command that accepts the message changes DLEN alone. -/
theorem exec_of_unpadBody {i : Instr} {f : List Byte → Except ErrKind (List Byte)} {s : State} {r : List Byte}
    (hi : commandBody i s = unpadBody f s) (hfit : Fits s s.dlen) (hr : f (message s) = .ok r) :
    ∃ t, exec i s = .next t ∧ OnlyBufferAndOk s t ∧ t.dlen = r.length ∧ t.dbuf = s.dbuf :=
  ⟨_, exec_of_commandBody_ok (hi.trans (unpadBody_eq_ok.mpr ⟨fitsBuffer_iff.mpr hfit, r, hr, rfl⟩)),
    onlyBufferAndOk_setErr_zero s s.dbuf r.length, rfl, rfl⟩

/-! A message that ends in given bytes, read off DBUF. -/

theorem read_of_message_eq_append {s : State} {r l : List Byte} (h : message s = r ++ l) {k : Nat} (hk : k < l.length) :
    s.dbuf.read (r.length + k) = l.getD k 0 := by
  have hlen : s.dlen = r.length + l.length := by rw [← message_length, h, List.length_append]
  rw [← getD_message s (by omega), h, List.getD_append_right _ _ _ _ (Nat.le_add_right _ _), Nat.add_sub_cancel_left]

theorem message_eq_take_append {s : State} {d : Nat} {l : List Byte} (hd : d + l.length = s.dlen)
    (h : ∀ k, k < l.length → s.dbuf.read (d + k) = l.getD k 0) : message s = (message s).take d ++ l := by
  have hdrop : (message s).drop d = l := by
    apply List.ext_getElem
    · rw [List.length_drop, message_length]; omega
    · intro k _ hk
      rw [List.getElem_drop, ← List.getD_eq_getElem _ 0, getD_message s (by omega), h k hk, List.getD_eq_getElem _ 0 hk]
  rw [← hdrop, List.take_append_drop]

theorem take_message_length {s : State} {d : Nat} (hd : d ≤ s.dlen) : ((message s).take d).length = d := by
  rw [List.length_take, message_length, min_eq_left hd]

/-- Settles O40: DBUF ends in n bytes equal to n exactly if `pkcs7Unpad` accepts the message and cuts n bytes. -/
theorem pkcs7unpadChecksEveryByte : Obligations.Pkcs7unpadChecksEveryByte := by
  unfold Obligations.Pkcs7unpadChecksEveryByte
  refine ⟨rfl, fun s => ⟨fun n hfit hpos hle hbytes => ?_, fun hfit hnone => ?_, fun hfit => ?_⟩⟩
  · have hn : n < 256 := by
      rw [← hbytes (s.dlen - n) le_rfl (by omega)]
      exact (s.dbuf.read _).isLt
    have hread : ∀ k, k < (pkcs7Fill n).length → s.dbuf.read (s.dlen - n + k) = (pkcs7Fill n).getD k 0 := by
      intro k hk
      rw [pkcs7Fill_length] at hk
      rw [getD_pkcs7Fill hk]
      apply BitVec.eq_of_toNat_eq
      rw [hbytes _ (Nat.le_add_right _ _) (by omega), toNat_ofNat_byte hn]
    have hmsg := message_eq_take_append (by rw [pkcs7Fill_length, Nat.sub_add_cancel hle]) hread
    have hexec := exec_of_unpadBody (i := .pkcs7unpad) rfl hfit (pkcs7Unpad_eq_ok.mpr ⟨n, hpos, hn, hmsg⟩)
    rwa [take_message_length (Nat.sub_le _ _)] at hexec
  · refine exec_of_commandBody_error (i := .pkcs7unpad) (unpadBody_of_not_ok hfit pkcs7Unpad_eq_error fun r hr => ?_)
    obtain ⟨n, hpos, hn, hmsg⟩ := pkcs7Unpad_eq_ok.mp hr
    have hlen : s.dlen = r.length + n := by rw [← message_length, hmsg, List.length_append, pkcs7Fill_length]
    obtain ⟨a, hle, hlt, hne⟩ := hnone n hpos (by omega)
    obtain ⟨k, rfl⟩ := Nat.exists_eq_add_of_le (show r.length ≤ a by omega)
    have hk : k < n := by omega
    rw [read_of_message_eq_append hmsg (by rwa [pkcs7Fill_length]), getD_pkcs7Fill hk] at hne
    exact hne (toNat_ofNat_byte hn)
  · exact exec_of_commandBody_error (i := .pkcs7unpad) (unpadBody_of_not_fits hfit pkcs7Unpad)

/-- Settles O41: byte i of DBUF is the last that is not zero and the marker exactly if `m2Unpad` accepts the message and
cuts it before byte i. -/
theorem m2unpadScansBack : Obligations.M2unpadScansBack := by
  unfold Obligations.M2unpadScansBack
  refine ⟨rfl, fun s => ⟨fun i hfit hi hmark hzeros => ?_, fun hfit hnone => ?_, fun hfit => ?_⟩⟩
  · have hpos : 0 < s.dlen - i := Nat.sub_pos_of_lt hi
    have hread : ∀ k, k < (m2Fill (s.dlen - i)).length →
        s.dbuf.read (i + k) = (m2Fill (s.dlen - i)).getD k 0 := by
      intro k hk
      rw [m2Fill_length hpos] at hk
      cases k with
      | zero => exact hmark
      | succ k => rw [getD_m2Fill_succ, hzeros _ (by omega) (by omega)]
    have hmsg := message_eq_take_append (by rw [m2Fill_length hpos, Nat.add_sub_cancel' hi.le]) hread
    have hexec := exec_of_unpadBody (i := .m2unpad) rfl hfit (m2Unpad_eq_ok.mpr ⟨_, hpos, hmsg⟩)
    rwa [take_message_length hi.le] at hexec
  · refine exec_of_commandBody_error (i := .m2unpad) (unpadBody_of_not_ok hfit m2Unpad_eq_error fun r hr => ?_)
    obtain ⟨n, hpos, hmsg⟩ := m2Unpad_eq_ok.mp hr
    have hlen : s.dlen = r.length + n := by rw [← message_length, hmsg, List.length_append, m2Fill_length hpos]
    have hmark : s.dbuf.read r.length = 0x80 := read_of_message_eq_append hmsg (k := 0) (Nat.succ_pos _)
    obtain ⟨a, hlt, hend, hne⟩ := hnone r.length (by omega) hmark
    obtain ⟨k, rfl⟩ := Nat.exists_eq_add_of_lt hlt
    apply hne
    rw [Nat.add_assoc, read_of_message_eq_append hmsg (by rw [m2Fill_length hpos]; omega), getD_m2Fill_succ]
  · exact exec_of_commandBody_error (i := .m2unpad) (unpadBody_of_not_fits hfit m2Unpad)

end Sys2Proof.Machine
end

section
/-! The mode commands (spec/44_modes.md R210 to R223): messages as lists of blocks, CBC chaining block by block, padding,
what the two encryptions share and what the two decryptions share, and the four commands. -/

namespace Sys2Proof.Machine

open Sys2Proof.Claims

/-! Messages as lists of blocks (R210). -/

theorem getD_blocksOf (p : List Byte) {j : Nat} (hj : j < p.length / 16) :
    (blocksOf p).getD j zeroBlock = blockOf p j := by
  simp [blocksOf, hj]

/-- A sequence of whole blocks is determined by its blocks. -/
theorem eq_of_blockOf_eq {p q : List Byte} (hp : p.length % 16 = 0) (hlen : p.length = q.length)
    (h : ∀ j, j < p.length / 16 → blockOf p j = blockOf q j) : p = q := by
  have hblocks : blocksOf p = blocksOf q := by
    rw [blocksOf, blocksOf, ← hlen]
    exact List.map_congr_left fun j hj => h j (List.mem_range.mp hj)
  rw [← joinBlocks_blocksOf p hp, hblocks, joinBlocks_blocksOf q (hlen ▸ hp)]

@[simp] theorem ecbEncrypt_length (w : List Byte) (nr : Nat) (bs : List Block) :
    (ecbEncrypt w nr bs).length = bs.length := List.length_map _

@[simp] theorem ecbDecrypt_length (w : List Byte) (nr : Nat) (bs : List Block) :
    (ecbDecrypt w nr bs).length = bs.length := List.length_map _

@[simp] theorem cbcEncrypt_length (w : List Byte) (nr : Nat) (ch : Block) (bs : List Block) :
    (cbcEncrypt w nr ch bs).length = bs.length := by
  induction bs generalizing ch with
  | nil => rfl
  | cons b rest ih => rw [cbcEncrypt, List.length_cons, ih, List.length_cons]

@[simp] theorem cbcDecrypt_length (w : List Byte) (nr : Nat) (ch : Block) (bs : List Block) :
    (cbcDecrypt w nr ch bs).length = bs.length := by
  induction bs generalizing ch with
  | nil => rfl
  | cons c rest ih => rw [cbcDecrypt, List.length_cons, ih, List.length_cons]

/-! ECB (R213, R217): each block on its own. -/

theorem blockOf_ecbEncrypt (w : List Byte) (nr : Nat) (p : List Byte) {j : Nat} (hj : j < p.length / 16) :
    blockOf (joinBlocks (ecbEncrypt w nr (blocksOf p))) j = encryptBlock (blockOf p j) w nr := by
  rw [blockOf_joinBlocks _ (by simpa using hj)]
  simp [ecbEncrypt, blocksOf, hj]

theorem blockOf_ecbDecrypt (w : List Byte) (nr : Nat) (c : List Byte) {j : Nat} (hj : j < c.length / 16) :
    blockOf (joinBlocks (ecbDecrypt w nr (blocksOf c))) j = decryptBlock (blockOf c j) w nr := by
  rw [blockOf_joinBlocks _ (by simpa using hj)]
  simp [ecbDecrypt, blocksOf, hj]

/-! CBC (R220, R223): the chaining value of block j is entry j of the ciphertext with the IV put before it. -/

theorem chainValue_eq_getD (iv : Block) (c : List Byte) {j : Nat} (hj : j ≤ c.length / 16) :
    chainValue iv c j = (iv :: blocksOf c).getD j zeroBlock := by
  cases j with
  | zero => rfl
  | succ k => rw [List.getD_cons_succ, getD_blocksOf c hj, chainValue]

/-- The output ciphertext block is the next chaining value (R220). -/
theorem getD_cbcEncrypt (w : List Byte) (nr : Nat) (ch : Block) (bs : List Block) {j : Nat} (hj : j < bs.length) :
    (cbcEncrypt w nr ch bs).getD j zeroBlock =
      encryptBlock (xorBytes (bs.getD j zeroBlock) ((ch :: cbcEncrypt w nr ch bs).getD j zeroBlock)) w nr := by
  induction bs generalizing ch j with
  | nil => cases hj
  | cons b rest ih =>
    cases j with
    | zero => rfl
    | succ j => exact ih _ (Nat.lt_of_succ_lt_succ hj)

/-- The input ciphertext block is the next chaining value (R223). -/
theorem getD_cbcDecrypt (w : List Byte) (nr : Nat) (ch : Block) (bs : List Block) {j : Nat} (hj : j < bs.length) :
    (cbcDecrypt w nr ch bs).getD j zeroBlock =
      xorBytes (decryptBlock (bs.getD j zeroBlock) w nr) ((ch :: bs).getD j zeroBlock) := by
  induction bs generalizing ch j with
  | nil => cases hj
  | cons c rest ih =>
    cases j with
    | zero => rfl
    | succ j => exact ih _ (Nat.lt_of_succ_lt_succ hj)

theorem blockOf_cbcEncrypt (w : List Byte) (nr : Nat) (iv : Block) (p : List Byte) {j : Nat} (hj : j < p.length / 16) :
    blockOf (joinBlocks (cbcEncrypt w nr iv (blocksOf p))) j =
      encryptBlock (xorBytes (blockOf p j) (chainValue iv (joinBlocks (cbcEncrypt w nr iv (blocksOf p))) j)) w nr := by
  have hlen : j < (blocksOf p).length := by rwa [blocksOf_length]
  have hle : j ≤ (joinBlocks (cbcEncrypt w nr iv (blocksOf p))).length / 16 := by
    rw [joinBlocks_length, cbcEncrypt_length]; omega
  rw [chainValue_eq_getD _ _ hle, blocksOf_joinBlocks, blockOf_joinBlocks _ (by simpa using hj),
    getD_cbcEncrypt _ _ _ _ hlen, getD_blocksOf _ hj]

theorem blockOf_cbcDecrypt (w : List Byte) (nr : Nat) (iv : Block) (c : List Byte) {j : Nat} (hj : j < c.length / 16) :
    blockOf (joinBlocks (cbcDecrypt w nr iv (blocksOf c))) j =
      xorBytes (decryptBlock (blockOf c j) w nr) (chainValue iv c j) := by
  have hlen : j < (blocksOf c).length := by rwa [blocksOf_length]
  rw [chainValue_eq_getD _ _ hj.le, blockOf_joinBlocks _ (by simpa using hj), getD_cbcDecrypt _ _ _ _ hlen,
    getD_blocksOf _ hj]

/-! Padding to whole blocks (R211). -/

theorem isPadded_iff {pad : PadScheme} {m p : List Byte} : IsPadded pad m p ↔ p = applyPad m pad := by
  cases pad with
  | none => exact Iff.rfl
  | pkcs7 => exact ok_eq_ok
  | m2 => exact ok_eq_ok

theorem padCount_sixteen_pos (len : Nat) : 0 < padCount len 16 := Nat.sub_pos_of_lt (Nat.mod_lt _ (by decide))

theorem length_of_isPadded {pad : PadScheme} {s : State} {p : List Byte} (h : IsPadded pad (message s) p) :
    p.length = paddedLength s.dlen pad := by
  rw [isPadded_iff.mp h, ← message_length s]
  cases pad with
  | none => rfl
  | pkcs7 => rw [applyPad, List.length_append, pkcs7Fill_length, paddedLength]
  | m2 => rw [applyPad, List.length_append, m2Fill_length (padCount_sixteen_pos _), paddedLength]

theorem paddedLength_of_padded {pad : PadScheme} (h : pad ≠ .none) (len : Nat) :
    paddedLength len pad = len + 16 - len % 16 := by
  have hmod := Nat.mod_lt len (show 16 > 0 by decide)
  cases pad with
  | none => exact absurd rfl h
  | pkcs7 | m2 => exact (Nat.add_sub_assoc hmod.le len).symm

theorem paddedLength_aligned {pad : PadScheme} {len : Nat} (h : pad = .none → len % 16 = 0) :
    paddedLength len pad % 16 = 0 := by
  by_cases hpad : pad = .none
  · rw [hpad]; exact h hpad
  · rw [paddedLength_of_padded hpad]; omega

theorem le_paddedLength (len : Nat) (pad : PadScheme) : len ≤ paddedLength len pad := by
  cases pad with
  | none => exact le_rfl
  | pkcs7 | m2 => exact Nat.le_add_right _ _

theorem unpadBy_eq_applyUnpad (pad : PadScheme) (p : List Byte) : unpadBy pad p = applyUnpad p pad := by
  cases pad <;> rfl

theorem applyUnpad_eq_error {pad : PadScheme} {p : List Byte} {e : ErrKind} (h : applyUnpad p pad = .error e) :
    e = .invalidPadding := by
  cases pad with
  | none => cases h
  | pkcs7 => exact pkcs7Unpad_eq_error h
  | m2 => exact m2Unpad_eq_error h

/-! The operands (R143, R214): the key before the IV. -/

theorem keyOperand_of_legal {s : State} (h : LegalKeyLen s) : keyOperand s = .ok (keyBytes s) :=
  keyOperand_eq_ok.mpr ⟨keyLengthOk_iff.mpr h, rfl⟩

theorem keyOperand_of_illegal {s : State} (h : ¬ LegalKeyLen s) : keyOperand s = .error .invalidKeyLength :=
  keyOperand_eq_error.mpr ⟨Bool.eq_false_iff.mpr (mt keyLengthOk_iff.mp h), rfl⟩

theorem keyOperand_bind_of_illegal {β : Type} {s : State} (h : ¬ LegalKeyLen s)
    {f : List Byte → Except ErrKind β} : (keyOperand s >>= f) = .error .invalidKeyLength :=
  bind_eq_error.mpr (.inl (keyOperand_of_illegal h))

theorem ivOperand_bind_of_bad_length {β : Type} {s : State} (hkey : LegalKeyLen s) (hiv : s.ivlen ≠ 16)
    {f : List Byte → Block → Except ErrKind β} :
    (keyOperand s >>= fun key => ivOperand s >>= f key) = .error .invalidIVLength :=
  bind_eq_error.mpr (.inr ⟨_, keyOperand_of_legal hkey,
    bind_eq_error.mpr (.inl (ivOperand_eq_error.mpr ⟨hiv, rfl⟩))⟩)

/-! The bodies with legal operands: the length checks, then the commit of the mode's output. -/

theorem ecbencBody_of_legal {s : State} (hkey : LegalKeyLen s) (pad : PadScheme) :
    ecbencBody pad s = (encryptChecks pad s >>= fun _ => .ok (commitEncrypted s
      (joinBlocks (ecbEncrypt (sched s) (rounds s) (blocksOf (applyPad (message s) pad)))))) := by
  rw [ecbencBody, keyOperand_of_legal hkey]
  rfl

theorem ecbdecBody_of_legal {s : State} (hkey : LegalKeyLen s) (pad : PadScheme) :
    ecbdecBody pad s = (decryptChecks s >>= fun _ => commitDecrypted pad s
      (joinBlocks (ecbDecrypt (sched s) (rounds s) (blocksOf (message s))))) := by
  rw [ecbdecBody, keyOperand_of_legal hkey]
  rfl

theorem cbcencBody_of_legal {s : State} (hkey : LegalKeyLen s) (hiv : s.ivlen = 16) (pad : PadScheme) :
    cbcencBody pad s = (encryptChecks pad s >>= fun _ => .ok (commitEncrypted s
      (joinBlocks (cbcEncrypt (sched s) (rounds s) s.iv (blocksOf (applyPad (message s) pad)))))) := by
  rw [cbcencBody, keyOperand_of_legal hkey, ivOperand_eq_ok.mpr ⟨hiv, rfl⟩]
  rfl

theorem cbcdecBody_of_legal {s : State} (hkey : LegalKeyLen s) (hiv : s.ivlen = 16) (pad : PadScheme) :
    cbcdecBody pad s = (decryptChecks s >>= fun _ => commitDecrypted pad s
      (joinBlocks (cbcDecrypt (sched s) (rounds s) s.iv (blocksOf (message s))))) := by
  rw [cbcdecBody, keyOperand_of_legal hkey, ivOperand_eq_ok.mpr ⟨hiv, rfl⟩]
  rfl

/-! What the encryptions share (R213, R220), with c the ciphertext: the length check, the room check, the commit. -/

section

variable {i : Instr} {pad : PadScheme} {s : State} {c : List Block}

theorem encryptChecks_of_unaligned (h : s.dlen % 16 ≠ 0) : encryptChecks .none s = .error .invalidInputLength :=
  bind_eq_error.mpr (.inl (requireAligned_eq_error.mpr ⟨h, rfl⟩))

/-- The room on entry and the room for the result fail with the same error. -/
theorem encryptChecks_of_not_fits (halign : pad = .none → s.dlen % 16 = 0) (h : ¬ Fits s (paddedLength s.dlen pad)) :
    encryptChecks pad s = .error .capacityExceeded := by
  have hroom : (requireFits s s.dlen >>= fun _ => requireFits s (paddedLength s.dlen pad)) =
      .error .capacityExceeded := by
    by_cases hentry : Fits s s.dlen
    · exact bind_eq_error.mpr (.inr ⟨(), requireFits_eq_ok.mpr (fitsBuffer_iff.mpr hentry), requireFits_of_not_fits h⟩)
    · exact bind_eq_error.mpr (.inl (requireFits_of_not_fits hentry))
  cases pad with
  | none => exact bind_eq_error.mpr (.inr ⟨(), requireAligned_eq_ok.mpr (halign rfl), hroom⟩)
  | pkcs7 | m2 => exact hroom

theorem encryptChecks_of_fits (halign : pad = .none → s.dlen % 16 = 0) (hfit : Fits s (paddedLength s.dlen pad)) :
    encryptChecks pad s = .ok () :=
  encryptChecks_eq_ok.mpr
    ⟨halign, fitsBuffer_iff.mpr (fits_of_le (le_paddedLength _ _) hfit), fitsBuffer_iff.mpr hfit⟩

variable (hi : commandBody i s = (encryptChecks pad s >>= fun _ => .ok (commitEncrypted s (joinBlocks c))))
include hi

theorem exec_encrypt_of_unaligned (hpad : pad = .none) (h : s.dlen % 16 ≠ 0) : exec i s = .next (s.setErr 3) := by
  subst hpad
  exact exec_of_commandBody_error (hi.trans (bind_eq_error.mpr (.inl (encryptChecks_of_unaligned h))))

theorem exec_encrypt_of_not_fits (halign : pad = .none → s.dlen % 16 = 0) (h : ¬ Fits s (paddedLength s.dlen pad)) :
    exec i s = .next (s.setErr 8) :=
  exec_of_commandBody_error (hi.trans (bind_eq_error.mpr (.inl (encryptChecks_of_not_fits halign h))))

/-- An encryption that passes its checks leaves the joined blocks of c as the message. -/
theorem exec_encrypt (hm : s.dbuf.wf) (halign : pad = .none → s.dlen % 16 = 0)
    (hfit : Fits s (paddedLength s.dlen pad)) (hc : c.length = paddedLength s.dlen pad / 16) :
    ∃ t, exec i s = .next t ∧ OnlyBufferAndOk s t ∧ t.dlen = paddedLength s.dlen pad ∧ message t = joinBlocks c ∧
      ∀ a, paddedLength s.dlen pad ≤ a → t.dbuf.read a = s.dbuf.read a := by
  have hlen : (joinBlocks c).length = paddedLength s.dlen pad := by
    have := paddedLength_aligned halign
    rw [joinBlocks_length, hc]; omega
  have hbody := hi.trans (bind_eq_ok.mpr ⟨(), encryptChecks_of_fits halign hfit, rfl⟩)
  refine ⟨_, exec_of_commandBody_ok hbody, onlyBufferAndOk_setErr_zero s _ _, hlen,
    readBytes_writeBytes s.dbuf hm 0 _, fun a ha => ?_⟩
  exact read_writeBytes_outside s.dbuf 0 _ (.inr (by rwa [Nat.zero_add, hlen]))

end

/-! What the decryptions share (R217, R223), with p the plaintext before unpadding. -/

section

variable {i : Instr} {pad : PadScheme} {s : State} {p : List Byte}

theorem decryptChecks_of_unaligned (h : s.dlen % 16 ≠ 0) : decryptChecks s = .error .invalidInputLength :=
  bind_eq_error.mpr (.inl (requireAligned_eq_error.mpr ⟨h, rfl⟩))

theorem decryptChecks_of_not_fits (halign : s.dlen % 16 = 0) (h : ¬ Fits s s.dlen) :
    decryptChecks s = .error .capacityExceeded :=
  bind_eq_error.mpr (.inr ⟨(), requireAligned_eq_ok.mpr halign, requireFits_of_not_fits h⟩)

theorem decryptChecks_of_fits (halign : s.dlen % 16 = 0) (hfit : Fits s s.dlen) : decryptChecks s = .ok () :=
  decryptChecks_eq_ok.mpr ⟨halign, fitsBuffer_iff.mpr hfit⟩

theorem commitDecrypted_of_bad_padding {e : ErrKind} (h : unpadBy pad p = .error e) :
    commitDecrypted pad s p = .error .invalidPadding := by
  rw [unpadBy_eq_applyUnpad] at h
  obtain rfl := applyUnpad_eq_error h
  exact bind_eq_error.mpr (.inl h)

variable (hi : commandBody i s = (decryptChecks s >>= fun _ => commitDecrypted pad s p))
include hi

theorem exec_decrypt_of_unaligned (h : s.dlen % 16 ≠ 0) : exec i s = .next (s.setErr 3) :=
  exec_of_commandBody_error (hi.trans (bind_eq_error.mpr (.inl (decryptChecks_of_unaligned h))))

theorem exec_decrypt_of_not_fits (halign : s.dlen % 16 = 0) (h : ¬ Fits s s.dlen) : exec i s = .next (s.setErr 8) :=
  exec_of_commandBody_error (hi.trans (bind_eq_error.mpr (.inl (decryptChecks_of_not_fits halign h))))

theorem exec_decrypt_of_bad_padding (halign : s.dlen % 16 = 0) (hfit : Fits s s.dlen) {e : ErrKind}
    (h : unpadBy pad p = .error e) : exec i s = .next (s.setErr 5) :=
  exec_of_commandBody_error (hi.trans (bind_eq_error.mpr
    (.inr ⟨(), decryptChecks_of_fits halign hfit, commitDecrypted_of_bad_padding h⟩)))

/-- A decryption that passes its checks writes all of p and cuts DLEN to the unpadded length. -/
theorem exec_decrypt (hm : s.dbuf.wf) (halign : s.dlen % 16 = 0) (hfit : Fits s s.dlen) (hlen : p.length = s.dlen)
    {r : List Byte} (hr : unpadBy pad p = .ok r) :
    ∃ t, exec i s = .next t ∧ OnlyBufferAndOk s t ∧ t.dlen = r.length ∧
      (∀ a, a < s.dlen → t.dbuf.read a = p.getD a 0) ∧ (∀ a, s.dlen ≤ a → t.dbuf.read a = s.dbuf.read a) := by
  have hcommit := commitDecrypted_eq_ok (s := s).mpr ⟨r, (unpadBy_eq_applyUnpad pad p).symm.trans hr, rfl⟩
  have hbody := hi.trans (bind_eq_ok.mpr ⟨(), decryptChecks_of_fits halign hfit, hcommit⟩)
  refine ⟨_, exec_of_commandBody_ok hbody, onlyBufferAndOk_setErr_zero s _ _, rfl, fun a ha => ?_, fun a ha => ?_⟩
  · have hread := read_writeBytes_inside s.dbuf hm 0 p (hlen.symm ▸ ha)
    rwa [Nat.zero_add] at hread
  · exact read_writeBytes_outside s.dbuf 0 p (.inr (by rwa [Nat.zero_add, hlen]))

end

/-! ECBENC and ECBDEC. -/

/-- Settles O43: the message left is `ecbEncrypt` of the padded message, read by `blockOf_ecbEncrypt`. -/
theorem ecbencEncryptsEachBlock : Obligations.EcbencEncryptsEachBlock := by
  unfold Obligations.EcbencEncryptsEachBlock
  refine ⟨fun pad => by cases pad <;> rfl, fun pad s p hm hp => ?_⟩
  have hlen := length_of_isPadded hp
  obtain rfl := isPadded_iff.mp hp
  rw [hlen]
  refine ⟨fun hkey halign hfit => ?_, fun hpad => paddedLength_of_padded hpad _,
    fun hkey => exec_of_commandBody_error (i := .ecbenc pad) (keyOperand_bind_of_illegal hkey),
    fun hkey => exec_encrypt_of_unaligned (i := .ecbenc pad) (ecbencBody_of_legal hkey pad),
    fun hkey => exec_encrypt_of_not_fits (i := .ecbenc pad) (ecbencBody_of_legal hkey pad)⟩
  obtain ⟨t, hexec, honly, hdlen, hmsg, hkeep⟩ := exec_encrypt (i := .ecbenc pad) (ecbencBody_of_legal hkey pad)
    hm halign hfit (by rw [ecbEncrypt_length, blocksOf_length, hlen])
  refine ⟨t, hexec, honly, hdlen, fun j hj => ?_, hkeep⟩
  rw [hmsg]
  exact blockOf_ecbEncrypt _ _ _ (by rwa [hlen])

/-- The plaintext of R217 is the one `ecbDecrypt` computes. -/
theorem eq_of_isEcbPlain {s : State} {p : List Byte} (halign : s.dlen % 16 = 0) (h : IsEcbPlain s p) :
    p = joinBlocks (ecbDecrypt (sched s) (rounds s) (blocksOf (message s))) := by
  obtain ⟨hlen, hblock⟩ := h
  refine eq_of_blockOf_eq (hlen ▸ halign) ?_ fun j hj => ?_
  · rw [joinBlocks_length, ecbDecrypt_length, blocksOf_length, message_length, hlen]; omega
  · rw [hlen] at hj
    rw [hblock j hj, blockOf_ecbDecrypt _ _ _ (by rwa [message_length])]

theorem ecbdecBody_of_isEcbPlain {s : State} {p : List Byte} (hkey : LegalKeyLen s) (halign : s.dlen % 16 = 0)
    (hp : IsEcbPlain s p) (pad : PadScheme) :
    ecbdecBody pad s = (decryptChecks s >>= fun _ => commitDecrypted pad s p) := by
  rw [ecbdecBody_of_legal hkey pad, ← eq_of_isEcbPlain halign hp]

/-- Settles O44: the plaintext is `ecbDecrypt` of the message (`eq_of_isEcbPlain`), and `exec_decrypt` commits it. -/
theorem ecbdecDecryptsEachBlock : Obligations.EcbdecDecryptsEachBlock := by
  unfold Obligations.EcbdecDecryptsEachBlock
  refine ⟨fun pad => by cases pad <;> rfl, fun pad s p hm => ⟨fun r hkey halign hfit hp => ?_,
    fun e hkey halign hfit hp => ?_,
    fun hkey => exec_of_commandBody_error (i := .ecbdec pad) (keyOperand_bind_of_illegal hkey),
    fun hkey => exec_decrypt_of_unaligned (i := .ecbdec pad) (ecbdecBody_of_legal hkey pad),
    fun hkey => exec_decrypt_of_not_fits (i := .ecbdec pad) (ecbdecBody_of_legal hkey pad)⟩⟩
  · exact exec_decrypt (i := .ecbdec pad) (ecbdecBody_of_isEcbPlain hkey halign hp pad) hm halign hfit hp.1
  · exact exec_decrypt_of_bad_padding (i := .ecbdec pad) (ecbdecBody_of_isEcbPlain hkey halign hp pad) halign hfit

/-! CBCENC and CBCDEC. -/

/-- Settles O45: the message left is `cbcEncrypt` of the padded message, whose chain `blockOf_cbcEncrypt` reads. -/
theorem cbcencChains : Obligations.CbcencChains := by
  unfold Obligations.CbcencChains
  refine ⟨fun pad => by cases pad <;> rfl, fun pad s p hm hp => ?_⟩
  have hlen := length_of_isPadded hp
  obtain rfl := isPadded_iff.mp hp
  rw [hlen]
  refine ⟨fun hkey hiv halign hfit => ?_,
    fun hkey => exec_of_commandBody_error (i := .cbcenc pad) (keyOperand_bind_of_illegal hkey),
    fun hkey hiv => exec_of_commandBody_error (i := .cbcenc pad) (ivOperand_bind_of_bad_length hkey hiv),
    fun hkey hiv => exec_encrypt_of_unaligned (i := .cbcenc pad) (cbcencBody_of_legal hkey hiv pad),
    fun hkey hiv => exec_encrypt_of_not_fits (i := .cbcenc pad) (cbcencBody_of_legal hkey hiv pad)⟩
  obtain ⟨t, hexec, honly, hdlen, hmsg, hkeep⟩ := exec_encrypt (i := .cbcenc pad) (cbcencBody_of_legal hkey hiv pad)
    hm halign hfit (by rw [cbcEncrypt_length, blocksOf_length, hlen])
  refine ⟨t, hexec, honly, hdlen, fun j hj => ?_, hkeep⟩
  rw [hmsg]
  exact blockOf_cbcEncrypt _ _ _ _ (by rwa [hlen])

/-- The plaintext of R223 is the one `cbcDecrypt` computes. -/
theorem eq_of_isCbcPlain {s : State} {p : List Byte} (halign : s.dlen % 16 = 0) (h : IsCbcPlain s p) :
    p = joinBlocks (cbcDecrypt (sched s) (rounds s) s.iv (blocksOf (message s))) := by
  obtain ⟨hlen, hblock⟩ := h
  refine eq_of_blockOf_eq (hlen ▸ halign) ?_ fun j hj => ?_
  · rw [joinBlocks_length, cbcDecrypt_length, blocksOf_length, message_length, hlen]; omega
  · rw [hlen] at hj
    rw [hblock j hj, blockOf_cbcDecrypt _ _ _ _ (by rwa [message_length])]

theorem cbcdecBody_of_isCbcPlain {s : State} {p : List Byte} (hkey : LegalKeyLen s) (hiv : s.ivlen = 16)
    (halign : s.dlen % 16 = 0) (hp : IsCbcPlain s p) (pad : PadScheme) :
    cbcdecBody pad s = (decryptChecks s >>= fun _ => commitDecrypted pad s p) := by
  rw [cbcdecBody_of_legal hkey hiv pad, ← eq_of_isCbcPlain halign hp]

/-- Settles O46: the plaintext is `cbcDecrypt` of the message (`eq_of_isCbcPlain`), and `exec_decrypt` commits it. -/
theorem cbcdecChains : Obligations.CbcdecChains := by
  unfold Obligations.CbcdecChains
  refine ⟨fun pad => by cases pad <;> rfl, fun pad s p hm => ⟨fun r hkey hiv halign hfit hp => ?_,
    fun e hkey hiv halign hfit hp => ?_,
    fun hkey => exec_of_commandBody_error (i := .cbcdec pad) (keyOperand_bind_of_illegal hkey),
    fun hkey hiv => exec_of_commandBody_error (i := .cbcdec pad) (ivOperand_bind_of_bad_length hkey hiv),
    fun hkey hiv => exec_decrypt_of_unaligned (i := .cbcdec pad) (cbcdecBody_of_legal hkey hiv pad),
    fun hkey hiv => exec_decrypt_of_not_fits (i := .cbcdec pad) (cbcdecBody_of_legal hkey hiv pad)⟩⟩
  · exact exec_decrypt (i := .cbcdec pad) (cbcdecBody_of_isCbcPlain hkey hiv halign hp pad) hm halign hfit hp.1
  · exact exec_decrypt_of_bad_padding (i := .cbcdec pad) (cbcdecBody_of_isCbcPlain hkey hiv halign hp pad) halign hfit

end Sys2Proof.Machine
end

section
/-! CMAC (spec/45_cmac.md R236 to R243): doubling as arithmetic on 128 bits, the two commands, and the tag as the end of
a CBC chain. -/

namespace Sys2Proof.Machine

open Sys2Proof.Claims

/-! Doubling (R237). The number of a block is built byte by byte from the most significant one, and doubling is followed
along that way: before byte k enters, the number has already received the bit that byte k shifts out. -/

/-- The first k of the bytes f 0, f 1, ... as one number, f 0 most significant; `num128_eq_bytesNum` ties it to
`num128`. -/
def bytesNum (f : Nat → Byte) (k : Nat) : Nat :=
  match k with
  | 0 => 0
  | k + 1 => 256 * bytesNum f k + (f k).toNat

theorem bytesNum_eq_foldl (f : Nat → Byte) (k : Nat) :
    bytesNum f k = ((List.range k).map f).foldl (fun n x => 256 * n + x.toNat) 0 := by
  induction k with
  | zero => rfl
  | succ k ih => rw [List.range_succ, List.map_append, List.foldl_append, ← ih]; rfl

theorem toList_eq_map_byteAt {n : Nat} (v : Vector Byte n) : v.toList = (List.range n).map (byteAt v) := by
  apply List.ext_getElem
  · simp
  · intro i hi _
    simp [byteAt, toList_length v ▸ hi]

theorem num128_eq_bytesNum (b : Block) : num128 b = bytesNum (byteAt b) 16 := by
  rw [num128, toList_eq_map_byteAt, bytesNum_eq_foldl]

theorem bytesNum_lt (f : Nat → Byte) (k : Nat) : bytesNum f k < 256 ^ k := by
  induction k with
  | zero => exact Nat.one_pos
  | succ k ih =>
    have hbyte := (f k).isLt
    rw [bytesNum, Nat.pow_succ]
    omega

theorem toNat_shiftLeft_one (x : Byte) : (x <<< 1).toNat = 2 * (x.toNat % 128) := by
  rw [BitVec.toNat_shiftLeft, Nat.shiftLeft_eq]
  omega

/-- A byte shifted left takes in the top bit of the next. -/
theorem toNat_shiftLeft_one_or_carry (x y : Byte) :
    ((x <<< 1) ||| (y >>> 7)).toNat = 2 * (x.toNat % 128) + y.toNat / 128 := by
  have hcarry : y.toNat / 128 < 2 ^ 1 := by omega
  rw [BitVec.toNat_or, toNat_shiftLeft_one, BitVec.toNat_ushiftRight, Nat.shiftRight_eq_div_pow]
  exact (Nat.two_pow_add_eq_or_of_lt hcarry (x.toNat % 128)).symm

theorem byteAt_dbl_of_lt (b : Block) {i : Nat} (hi : i < 15) :
    byteAt (dbl b) i = (byteAt b i <<< 1) ||| (byteAt b (i + 1) >>> 7) := by
  rw [dbl, byteAt_tabulate _ _ (by omega), if_pos hi]

theorem byteAt_dbl_last (b : Block) :
    byteAt (dbl b) 15 = (byteAt b 15 <<< 1) ^^^ (if (byteAt b 0).msb then 0x87 else 0x00) := by
  rw [dbl, byteAt_tabulate _ _ (by decide), if_neg (by decide)]

/-- The top bits of bytes 1 to k - 1 pass from one byte of the double to the one before it; that of byte 0 leaves. -/
theorem bytesNum_dbl (b : Block) {k : Nat} (hk : k ≤ 15) :
    bytesNum (byteAt (dbl b)) k + 256 ^ k * ((byteAt b 0).toNat / 128) =
      2 * bytesNum (byteAt b) k + (byteAt b k).toNat / 128 := by
  induction k with
  | zero => simp [bytesNum]
  | succ k ih =>
    have ih := ih (by omega)
    rw [bytesNum, bytesNum, byteAt_dbl_of_lt b (by omega), toNat_shiftLeft_one_or_carry, Nat.pow_succ,
      Nat.mul_right_comm]
    omega

/-- The exclusive-or with a byte reaches the last byte only. -/
theorem xor_byte_of_last (a : Nat) {x c : Nat} (hx : x < 256) (hc : c < 256) :
    256 * a + (x ^^^ c) = (256 * a + x) ^^^ c := by
  apply Nat.eq_of_testBit_eq
  intro i
  have hxc : x ^^^ c < 2 ^ 8 := Nat.xor_lt_two_pow hx hc
  rw [Nat.testBit_xor, show 256 = 2 ^ 8 from rfl, Nat.testBit_two_pow_mul_add a hxc,
    Nat.testBit_two_pow_mul_add a hx]
  by_cases hi : i < 8
  · simp only [hi, if_true, Nat.testBit_xor]
  · have hci : c.testBit i = false :=
      Nat.testBit_lt_two_pow (hc.trans_le (Nat.pow_le_pow_right (n := 2) (by decide) (Nat.not_lt.mp hi)))
    simp only [hi, if_false, hci, Bool.xor_false]

theorem toNat_byteAt_dbl_last (b : Block) :
    (byteAt (dbl b) 15).toNat =
      (2 * ((byteAt b 15).toNat % 128)) ^^^ (if 128 ≤ (byteAt b 0).toNat then 0x87 else 0) := by
  rw [byteAt_dbl_last, BitVec.toNat_xor, toNat_shiftLeft_one, BitVec.msb_eq_decide]
  by_cases h : 128 ≤ (byteAt b 0).toNat <;> simp [h]

/-- Settles O49: `bytesNum_dbl` up to the last byte, whose shift and reduction complete 2b - 2^128 or 2b. -/
theorem dblDoubles128Bits : Obligations.DblDoubles128Bits := by
  unfold Obligations.DblDoubles128Bits
  intro b
  have hlead := bytesNum_dbl b (le_refl 15)
  have hbound := bytesNum_lt (byteAt (dbl b)) 15
  have hdbl : num128 (dbl b) = 256 * bytesNum (byteAt (dbl b)) 15 + (byteAt (dbl b) 15).toNat :=
    num128_eq_bytesNum (dbl b)
  have hnum : num128 b = 256 * bytesNum (byteAt b) 15 + (byteAt b 15).toNat := num128_eq_bytesNum b
  have hbyte := (byteAt b 0).isLt
  rw [hdbl, toNat_byteAt_dbl_last, xor_byte_of_last _ (by omega) (by split <;> decide)]
  by_cases htop : 128 ≤ (byteAt b 0).toNat
  · have hcarry : (byteAt b 0).toNat / 128 = 1 := by omega
    rw [hcarry] at hlead
    have hshift : 256 * bytesNum (byteAt (dbl b)) 15 + 2 * ((byteAt b 15).toNat % 128) =
        2 * num128 b - 2 ^ 128 := by omega
    rw [if_pos htop, if_neg (by omega), hshift]
  · have hcarry : (byteAt b 0).toNat / 128 = 0 := by omega
    rw [hcarry] at hlead
    rw [if_neg htop, if_pos (by omega), Nat.xor_zero]
    omega

/-! CMACKEYS and CMAC (R240, R243). -/

/-- Settles O50: `cmackeysBody_eq_ok` with a legal key, `keyOperand_bind_of_illegal` without. -/
theorem cmackeysWritesSubkeys : Obligations.CmackeysWritesSubkeys := by
  unfold Obligations.CmackeysWritesSubkeys
  refine ⟨rfl, fun s => ⟨fun hkey => ?_, fun hkey => ?_⟩⟩
  · have hbody := cmackeysBody_eq_ok.mpr ⟨keyLengthOk_iff.mpr hkey, rfl⟩
    exact ⟨_, exec_of_commandBody_ok (i := .cmackeys) hbody, rfl, rfl, err_setErr _ _, schedValid_setErr _ _,
      statusReserved_statusWithErr _ _, rfl⟩
  · exact exec_of_commandBody_error (i := .cmackeys) (keyOperand_bind_of_illegal hkey)

theorem cmacBody_of_not_fits {s : State} (hkey : LegalKeyLen s) (hfit : ¬ Fits s s.dlen) :
    cmacBody s = .error .capacityExceeded :=
  bind_eq_error.mpr (.inr ⟨_, keyOperand_of_legal hkey, bind_eq_error.mpr (.inl (requireFits_of_not_fits hfit))⟩)

/-- Settles O51: `cmacBody_eq_ok` when both checks pass, one lemma for each of the two errors. -/
theorem cmacWritesTag : Obligations.CmacWritesTag := by
  unfold Obligations.CmacWritesTag
  refine ⟨rfl, fun s => ⟨fun hkey hfit => ?_, fun hkey => ?_, fun hkey hfit => ?_⟩⟩
  · have hbody := cmacBody_eq_ok.mpr ⟨keyLengthOk_iff.mpr hkey, fitsBuffer_iff.mpr hfit, rfl⟩
    exact ⟨_, exec_of_commandBody_ok (i := .cmac) hbody, rfl, err_setErr _ _, schedValid_setErr _ _,
      statusReserved_statusWithErr _ _, rfl⟩
  · exact exec_of_commandBody_error (i := .cmac) (keyOperand_bind_of_illegal hkey)
  · exact exec_of_commandBody_error (i := .cmac) (cmacBody_of_not_fits hkey hfit)

/-! The tag (R239). The chain of `cmacTag` is the last ciphertext block of `cbcEncrypt`, and the blocks chained are
`maskedBlocks`. -/

/-- The last ciphertext block is the final chaining value. -/
theorem getLastD_cbcEncrypt (w : List Byte) (nr : Nat) (ch : Block) (bs : List Block) :
    (cbcEncrypt w nr ch bs).getLastD ch = bs.foldl (fun x b => encryptBlock (xorBytes x b) w nr) ch := by
  induction bs generalizing ch with
  | nil => rfl
  | cons b rest ih => rw [cbcEncrypt, List.getLastD_cons, ih, List.foldl_cons, xorBytes_comm]

theorem cmacTag_eq_getLastD_cbcEncrypt (msg key : List Byte) :
    cmacTag msg key = (cbcEncrypt (keyExpansion key).1 (keyExpansion key).2 zeroBlock
      ((List.range (cmacBlockCount msg - 1)).map (blockOf msg) ++ [cmacLast (cmacSubkeys key) msg])).getLastD
        zeroBlock := by
  rw [getLastD_cbcEncrypt, List.foldl_append, List.foldl_map]
  rfl

/-- A sequence of n + 1 blocks with its last block masked. -/
theorem dropLast_blocksOf_append_masked {p : List Byte} {n : Nat} (hp : p.length / 16 = n + 1) (k : Block) :
    (blocksOf p).dropLast ++ [xorBytes ((blocksOf p).getLastD zeroBlock) k] =
      (List.range n).map (blockOf p) ++ [xorBytes (blockOf p n) k] := by
  have hblocks : blocksOf p = (List.range n).map (blockOf p) ++ [blockOf p n] := by
    rw [blocksOf, hp, List.range_succ, List.map_append, List.map_singleton]
  rw [hblocks, List.dropLast_concat, List.getLastD_concat]

theorem lastBlockComplete_iff {msg : List Byte} :
    lastBlockComplete msg = true ↔ 0 < msg.length ∧ msg.length % 16 = 0 := decide_eq_true_iff

theorem blockOf_append_of_lt {m : List Byte} {j : Nat} (l : List Byte) (hj : j < m.length / 16) :
    blockOf (m ++ l) j = blockOf m j :=
  bytes_ext fun i hi => by
    rw [blockOf, blockOf, byteAt_tabulate _ _ hi, byteAt_tabulate _ _ hi, List.getD_append _ _ _ _ (by omega)]

theorem blockOf_eq_ofBytes_drop (p : List Byte) (j : Nat) : blockOf p j = ofBytes 16 (p.drop (16 * j)) :=
  bytes_ext fun i hi => by
    rw [blockOf, byteAt_tabulate _ _ hi, byteAt_ofBytes _ _ hi, List.getD_eq_getElem?_getD,
      List.getD_eq_getElem?_getD, List.getElem?_drop]

theorem ofBytes_append_zeros (n : Nat) (l : List Byte) (k : Nat) :
    ofBytes n (l ++ List.replicate k 0) = ofBytes n l :=
  bytes_ext fun i hi => by
    rw [byteAt_ofBytes _ _ hi, byteAt_ofBytes _ _ hi]
    by_cases h : i < l.length
    · rw [List.getD_append _ _ _ _ h]
    · rw [List.getD_append_right _ _ _ _ (Nat.not_lt.mp h), List.getD_eq_default l _ (Nat.not_lt.mp h)]
      simp only [List.getD_eq_getElem?_getD, List.getElem?_replicate]
      split <;> rfl

/-- The last block of a message padded with Method 2 is what is left of the message, the marker, and zeros. -/
theorem blockOf_append_m2Fill (m : List Byte) (n : Nat) :
    blockOf (m ++ m2Fill n) (m.length / 16) = ofBytes 16 (m.drop (16 * (m.length / 16)) ++ [0x80]) := by
  rw [blockOf_eq_ofBytes_drop, List.drop_append_of_le_length (Nat.mul_div_le _ _), m2Fill, List.append_cons,
    ofBytes_append_zeros]

/-- The blocks of R239: whole blocks of the message, then its last block as `cmacLast` masks it. -/
theorem maskedBlocks_eq_append_cmacLast (msg key : List Byte) :
    maskedBlocks key msg =
      (List.range (cmacBlockCount msg - 1)).map (blockOf msg) ++ [cmacLast (cmacSubkeys key) msg] := by
  by_cases h : 0 < msg.length ∧ msg.length % 16 = 0
  · have hcount : msg.length / 16 = msg.length / 16 - 1 + 1 := by omega
    have hlast := lastBlockComplete_iff.mpr h
    simp only [maskedBlocks, cmacLast, cmacBlockCount, if_pos h, if_pos hlast]
    exact dropLast_blocksOf_append_masked hcount _
  · have hcount : (msg ++ m2Fill (padCount msg.length 16)).length / 16 = msg.length / 16 + 1 := by
      rw [List.length_append, m2Fill_length (padCount_sixteen_pos _), padCount]
      omega
    have hlast := mt lastBlockComplete_iff.mp h
    have hkeep : (List.range (msg.length / 16)).map (blockOf (msg ++ m2Fill (padCount msg.length 16))) =
        (List.range (msg.length / 16)).map (blockOf msg) :=
      List.map_congr_left fun j hj => blockOf_append_of_lt _ (List.mem_range.mp hj)
    simp only [maskedBlocks, cmacLast, cmacBlockCount, if_neg h, if_neg hlast, Nat.add_sub_cancel]
    rw [dropLast_blocksOf_append_masked hcount, hkeep, blockOf_append_m2Fill]

/-- Settles O52: `cmacTag` chains the blocks of `maskedBlocks`, and the last ciphertext block is its chaining value. -/
theorem cmacIsMaskedCbc : Obligations.CmacIsMaskedCbc := by
  unfold Obligations.CmacIsMaskedCbc
  intro msg key
  rw [cmacTag_eq_getLastD_cbcEncrypt, maskedBlocks_eq_append_cmacLast]

end Sys2Proof.Machine
end

section
/-! NOP (spec/46_system.md R255). -/

namespace Sys2Proof.Machine

open Sys2Proof.Claims

/-- Settles O37: the body of NOP leaves the state as it is, so the end of the command, `setErr 0`, is its whole effect. -/
theorem nopClearsErr : Obligations.NopClearsErr := by
  unfold Obligations.NopClearsErr
  refine ⟨rfl, fun s => ?_⟩
  have hbody : commandBody .nop s = .ok s := rfl
  exact ⟨s.setErr 0, exec_of_commandBody_ok hbody, err_setErr s 0, schedValid_setErr s 0,
    statusReserved_statusWithErr s.status 0, rfl⟩

end Sys2Proof.Machine
end

section
/-! The outcome of a command (spec/60_exceptions.md R262, R270): an error changes nothing but ERR, and the error reported
is the first of the fixed order whose cause the command meets. -/

namespace Sys2Proof.Machine

open Sys2Proof.Claims

/-! What a command word runs (R92, R262). -/

theorem hostCommand_of_legal {w : BitVec 16} {i : Instr} (h : decode w = .ok i) (s : State) :
    hostCommand w s = exec i { s with cmd := w } := by
  rw [hostCommand, runWord, h]

theorem hostCommand_of_illegal {w : BitVec 16} (h : ∀ i, decode w ≠ .ok i) (s : State) :
    hostCommand w s = .next (State.setErr { s with cmd := w } (errCode .illegalCommand)) :=
  runWord_of_illegal h _

/-- No command writes CMD. -/
theorem cmd_of_commandBody_ok {i : Instr} {s u : State} (h : commandBody i s = .ok u) : u.cmd = s.cmd := by
  cases i with
  | nop | subbytes | invsubbytes | shiftrows | invshiftrows | mixcolumns | invmixcolumns => cases h; rfl
  | keyexp => obtain ⟨-, rfl⟩ := keyexpBody_eq_ok.mp h; rfl
  | encblk | decblk => obtain ⟨-, rfl⟩ := blockBody_eq_ok.mp h; rfl
  | addroundkey r => obtain ⟨-, -, rfl⟩ := addroundkeyBody_eq_ok.mp h; rfl
  | pkcs7pad | m2pad => obtain ⟨-, -, -, rfl⟩ := padBody_eq_ok.mp h; rfl
  | pkcs7unpad | m2unpad => obtain ⟨-, _, -, rfl⟩ := unpadBody_eq_ok.mp h; rfl
  | ecbenc pad => obtain ⟨-, -, rfl⟩ := ecbencBody_eq_ok.mp h; rfl
  | cbcenc pad => obtain ⟨-, -, -, rfl⟩ := cbcencBody_eq_ok.mp h; rfl
  | ecbdec pad =>
    obtain ⟨-, -, hcommit⟩ := ecbdecBody_eq_ok.mp h
    obtain ⟨_, -, rfl⟩ := commitDecrypted_eq_ok.mp hcommit
    rfl
  | cbcdec pad =>
    obtain ⟨-, -, -, hcommit⟩ := cbcdecBody_eq_ok.mp h
    obtain ⟨_, -, rfl⟩ := commitDecrypted_eq_ok.mp hcommit
    rfl
  | cmackeys => obtain ⟨-, rfl⟩ := cmackeysBody_eq_ok.mp h; rfl
  | cmac => obtain ⟨-, -, rfl⟩ := cmacBody_eq_ok.mp h; rfl

/-- A command keeps CMD, and one that ends with an ERR other than 0 changes ERR alone. -/
theorem exec_error_changes_only_err {i : Instr} {s t : State} (h : exec i s = .next t) :
    t.cmd = s.cmd ∧ (t.err ≠ 0 → t = s.setErr t.err) := by
  rw [exec_eq_deliver] at h
  obtain ⟨u, hbody, rfl⟩ | ⟨e, -, rfl⟩ := deliver_cases h
  · have hcmd : u.cmd = s.cmd := cmd_of_commandBody_ok hbody
    exact ⟨hcmd, fun herr => absurd (err_setErr u 0) herr⟩
  · exact ⟨rfl, fun _ => by rw [err_setErr]⟩

/-- Settles O17: a legal word is its command (`exec_error_changes_only_err`), an illegal one an error by itself. -/
theorem errorChangesOnlyErr : Obligations.ErrorChangesOnlyErr := by
  unfold Obligations.ErrorChangesOnlyErr
  intro w s t h
  by_cases hlegal : ∃ i, decode w = .ok i
  · obtain ⟨i, hi⟩ := hlegal
    rw [hostCommand_of_legal hi] at h
    obtain ⟨hcmd, herr⟩ := exec_error_changes_only_err h
    refine ⟨hcmd, herr, fun j hj => ?_⟩
    obtain rfl : i = j := Except.ok.inj (hi.symm.trans hj)
    exact h
  · have hillegal : ∀ i, decode w ≠ .ok i := not_exists.mp hlegal
    rw [hostCommand_of_illegal hillegal] at h
    obtain rfl := Host.Outcome.next.inj h
    exact ⟨rfl, fun _ => by rw [err_setErr], fun i hi => absurd hi (hillegal i)⟩

/-! Checks in an order (R270). -/

/-- The result r comes from the checks of `order` made one after another: a cause met ends them with its error, and they
succeed where no cause is met. `commandBody_checksInOrder` ties it to every command. -/
def ChecksInOrder {α : Type} (r : Except ErrKind α) (cause : ErrKind → Prop) (order : List ErrKind) : Prop :=
  match order with
  | [] => ∃ a, r = .ok a
  | e :: rest => (cause e → r = .error e) ∧ (¬ cause e → ChecksInOrder r cause rest)

section

variable {α : Type} {r : Except ErrKind α} {cause : ErrKind → Prop}

theorem checksInOrder_nil : ChecksInOrder r cause [] ↔ ∃ a, r = .ok a := Iff.rfl

theorem checksInOrder_cons {e : ErrKind} {rest : List ErrKind} :
    ChecksInOrder r cause (e :: rest) ↔ (cause e → r = .error e) ∧ (¬ cause e → ChecksInOrder r cause rest) := Iff.rfl

/-- Checks whose cause is never met may be put in between. -/
theorem ChecksInOrder.of_sublist {checks order : List ErrKind} (h : ChecksInOrder r cause checks)
    (hsub : checks.Sublist order) (hnodup : order.Nodup) (hmem : ∀ e, e ∈ order → cause e → e ∈ checks) :
    ChecksInOrder r cause order := by
  induction hsub with
  | slnil => exact h
  | cons e hsub ih =>
    obtain ⟨hfresh, hnodup⟩ := List.nodup_cons.mp hnodup
    have hno : ¬ cause e := fun hc => hfresh (hsub.subset (hmem e (List.mem_cons_self ..) hc))
    exact ⟨fun hc => absurd hc hno,
      fun _ => ih h hnodup fun e' he' => hmem e' (List.mem_cons_of_mem _ he')⟩
  | cons_cons e hsub ih =>
    obtain ⟨hfresh, hnodup⟩ := List.nodup_cons.mp hnodup
    obtain ⟨hmet, hrest⟩ := h
    refine ⟨hmet, fun hno => ih (hrest hno) hnodup fun e' he' hc => ?_⟩
    have hne : e' ≠ e := fun heq => hfresh (heq ▸ he')
    exact List.mem_of_ne_of_mem hne (hmem e' (List.mem_cons_of_mem _ he') hc)

/-- The result is the error of the first cause met, or a success where none is. -/
theorem ChecksInOrder.first_error {order : List ErrKind} (h : ChecksInOrder r cause order) :
    (∃ (k : Nat) (e : ErrKind), order[k]? = some e ∧ cause e ∧ r = .error e ∧
        ∀ (j : Nat) (e' : ErrKind), j < k → order[j]? = some e' → ¬ cause e') ∨
      ((∀ e, e ∈ order → ¬ cause e) ∧ ∃ a, r = .ok a) := by
  induction order with
  | nil => exact .inr ⟨fun e he => absurd he List.not_mem_nil, h⟩
  | cons e rest ih =>
    obtain ⟨hmet, hrest⟩ := h
    by_cases hc : cause e
    · exact .inl ⟨0, e, rfl, hc, hmet hc, fun j _ hj => absurd hj (Nat.not_lt_zero j)⟩
    · obtain ⟨k, e₁, hk, hcause, herr, hbefore⟩ | ⟨hnone, hok⟩ := ih (hrest hc)
      · refine .inl ⟨k + 1, e₁, hk, hcause, herr, fun j e' hj he' => ?_⟩
        cases j with
        | zero => exact Option.some.inj he' ▸ hc
        | succ j => exact hbefore j e' (Nat.lt_of_succ_lt_succ hj) he'
      · exact .inr ⟨List.forall_mem_cons.mpr ⟨hc, hnone⟩, hok⟩

end

/-! The checks of each command. -/

/-- The checks a command makes, in its own order (R264 to R268). -/
def checksOf (i : Instr) : List ErrKind :=
  match i with
  | .nop | .subbytes | .invsubbytes | .shiftrows | .invshiftrows | .mixcolumns | .invmixcolumns => []
  | .encblk | .decblk => [.noSchedule]
  | .addroundkey _ => [.noSchedule, .illegalCommand]
  | .keyexp | .cmackeys => [.invalidKeyLength]
  | .cmac => [.invalidKeyLength, .capacityExceeded]
  | .pkcs7pad | .m2pad => [.invalidBlockSize, .capacityExceeded]
  | .pkcs7unpad | .m2unpad => [.capacityExceeded, .invalidPadding]
  | .ecbenc _ => [.invalidKeyLength, .invalidInputLength, .capacityExceeded]
  | .ecbdec _ => [.invalidKeyLength, .invalidInputLength, .capacityExceeded, .invalidPadding]
  | .cbcenc _ => [.invalidKeyLength, .invalidIVLength, .invalidInputLength, .capacityExceeded]
  | .cbcdec _ => [.invalidKeyLength, .invalidIVLength, .invalidInputLength, .capacityExceeded, .invalidPadding]

theorem checksOf_sublist (i : Instr) : (checksOf i).Sublist checkOrder := by
  cases i <;> exact List.isSublist_iff_sublist.mp rfl

theorem mem_checkOrder (e : ErrKind) : e ∈ checkOrder := by cases e <;> decide

/-- Two tables compared entry by entry: `Violates` has a cause only where `checksOf` lists the kind. -/
theorem mem_checksOf_of_violates {i : Instr} {s : State} {e : ErrKind} : Violates i s e → e ∈ checksOf i := by
  cases i <;> cases e <;> simp [Violates, checksOf]

/-- The checks both encryptions make after the operands; `hinput` and `hroom` are the causes R265 and R268 give them. -/
theorem encryptChecks_checksInOrder {pad : PadScheme} {s u : State} {cause : ErrKind → Prop}
    (hinput : cause .invalidInputLength ↔ pad = .none ∧ s.dlen % 16 ≠ 0)
    (hroom : cause .capacityExceeded ↔ ¬ Fits s (paddedLength s.dlen pad)) :
    ChecksInOrder (encryptChecks pad s >>= fun _ => .ok u) cause [.invalidInputLength, .capacityExceeded] := by
  simp only [checksInOrder_cons, checksInOrder_nil, hinput, hroom, not_and, not_not]
  refine ⟨fun ⟨hpad, h⟩ => ?_, fun halign => ⟨fun h => ?_, fun hfit => ?_⟩⟩
  · subst hpad; exact bind_eq_error.mpr (.inl (encryptChecks_of_unaligned h))
  · exact bind_eq_error.mpr (.inl (encryptChecks_of_not_fits halign h))
  · exact ⟨u, bind_eq_ok.mpr ⟨(), encryptChecks_of_fits halign hfit, rfl⟩⟩

theorem violates_inputLength_of_encrypt {i : Instr} {pad : PadScheme} (hi : i = .ecbenc pad ∨ i = .cbcenc pad)
    (s : State) : Violates i s .invalidInputLength ↔ pad = .none ∧ s.dlen % 16 ≠ 0 := by
  rcases hi with rfl | rfl <;> cases pad <;> simp [Violates]

theorem violates_capacity_of_encrypt {i : Instr} {pad : PadScheme} (hi : i = .ecbenc pad ∨ i = .cbcenc pad)
    (s : State) : Violates i s .capacityExceeded ↔ ¬ Fits s (paddedLength s.dlen pad) := by
  cases pad with
  | none => rcases hi with rfl | rfl <;> exact Iff.rfl
  | pkcs7 | m2 =>
    rw [paddedLength_of_padded (by decide)]
    rcases hi with rfl | rfl <;> exact Iff.rfl

/-- The checks both decryptions make after the operands, with p the plaintext before unpadding. -/
theorem decryption_checksInOrder {pad : PadScheme} {s : State} {p : List Byte} {cause : ErrKind → Prop}
    (hinput : cause .invalidInputLength ↔ s.dlen % 16 ≠ 0) (hroom : cause .capacityExceeded ↔ ¬ Fits s s.dlen)
    (hpadding : cause .invalidPadding ↔ ∀ r, unpadBy pad p ≠ .ok r) :
    ChecksInOrder (decryptChecks s >>= fun _ => commitDecrypted pad s p) cause
      [.invalidInputLength, .capacityExceeded, .invalidPadding] := by
  simp only [checksInOrder_cons, checksInOrder_nil, hinput, hroom, hpadding, not_not]
  refine ⟨fun h => ?_, fun halign => ⟨fun h => ?_, fun hfit => ?_⟩⟩
  · exact bind_eq_error.mpr (.inl (decryptChecks_of_unaligned h))
  · exact bind_eq_error.mpr (.inl (decryptChecks_of_not_fits halign h))
  · rw [decryptChecks_of_fits halign hfit]
    cases hunpad : unpadBy pad p with
    | error e => exact ⟨fun _ => commitDecrypted_of_bad_padding hunpad, fun h => absurd nofun h⟩
    | ok r =>
      have hcommit := commitDecrypted_eq_ok (s := s).mpr ⟨r, (unpadBy_eq_applyUnpad pad p).symm.trans hunpad, rfl⟩
      exact ⟨fun h => absurd rfl (h r), fun _ => ⟨_, hcommit⟩⟩

/-- What both unpad commands check, for any unpadding function f that knows one error. -/
theorem unpadBody_checksInOrder {s : State} {f : List Byte → Except ErrKind (List Byte)} {cause : ErrKind → Prop}
    (herr : ∀ {m e}, f m = .error e → e = .invalidPadding) (hroom : cause .capacityExceeded ↔ ¬ Fits s s.dlen)
    (hpadding : cause .invalidPadding ↔ ∀ r, f (message s) ≠ .ok r) :
    ChecksInOrder (unpadBody f s) cause [.capacityExceeded, .invalidPadding] := by
  simp only [checksInOrder_cons, checksInOrder_nil, hroom, hpadding, not_not, not_forall]
  refine ⟨fun h => unpadBody_of_not_fits h f, fun hfit => ⟨fun h => unpadBody_of_not_ok hfit herr h, fun ⟨r, hr⟩ => ?_⟩⟩
  exact ⟨_, unpadBody_eq_ok.mpr ⟨fitsBuffer_iff.mpr hfit, r, hr, rfl⟩⟩

/-- What both pad commands check, for any bytes `fill` to append. -/
theorem padBody_checksInOrder {s : State} {cause : ErrKind → Prop} (fill : Nat → List Byte)
    (hsize : cause .invalidBlockSize ↔ s.padbs = 0)
    (hroom : cause .capacityExceeded ↔ ¬ Fits s (s.dlen + padCount s.dlen s.padbs.toNat)) :
    ChecksInOrder (padBody fill s) cause [.invalidBlockSize, .capacityExceeded] := by
  simp only [checksInOrder_cons, checksInOrder_nil, hsize, hroom, not_not]
  refine ⟨fun h => padBody_of_padbs_zero h fill, fun hb => ⟨fun h => padBody_of_not_fits hb h fill, fun hfit => ?_⟩⟩
  exact ⟨_, padBody_eq_ok.mpr
    ⟨hb, fitsBuffer_iff.mpr (fits_of_le (Nat.le_add_right _ _) hfit), fitsBuffer_iff.mpr hfit, rfl⟩⟩

/-- The body of each command makes its checks in its order, each with the cause R264 to R268 give it. -/
theorem commandBody_checksInOrder (i : Instr) (s : State) :
    ChecksInOrder (commandBody i s) (Violates i s) (checksOf i) := by
  cases i with
  | nop | subbytes | invsubbytes | shiftrows | invshiftrows | mixcolumns | invmixcolumns => exact ⟨_, rfl⟩
  | encblk | decblk =>
    exact ⟨fun h => blockBody_of_noSchedule h _,
      fun h => ⟨_, blockBody_eq_ok.mpr ⟨Bool.eq_true_of_not_eq_false h, rfl⟩⟩⟩
  | addroundkey r =>
    refine ⟨fun h => addroundkeyBody_of_noSchedule h r, fun h => ?_⟩
    have hsched := Bool.eq_true_of_not_eq_false h
    exact ⟨fun hr => addroundkeyBody_of_round_above hsched hr,
      fun hr => ⟨_, addroundkeyBody_eq_ok.mpr ⟨hsched, Nat.not_lt.mp hr, rfl⟩⟩⟩
  | keyexp =>
    exact ⟨keyexpBody_of_illegal, fun h => ⟨_, keyexpBody_eq_ok.mpr ⟨keyLengthOk_iff.mpr (not_not.mp h), rfl⟩⟩⟩
  | cmackeys =>
    exact ⟨fun h => keyOperand_bind_of_illegal h,
      fun h => ⟨_, cmackeysBody_eq_ok.mpr ⟨keyLengthOk_iff.mpr (not_not.mp h), rfl⟩⟩⟩
  | cmac =>
    refine ⟨fun h => keyOperand_bind_of_illegal h, fun h => ?_⟩
    have hkey : LegalKeyLen s := not_not.mp h
    exact ⟨fun hfit => cmacBody_of_not_fits hkey hfit, fun hfit =>
      ⟨_, cmacBody_eq_ok.mpr ⟨keyLengthOk_iff.mpr hkey, fitsBuffer_iff.mpr (not_not.mp hfit), rfl⟩⟩⟩
  | pkcs7pad | m2pad => exact padBody_checksInOrder _ Iff.rfl Iff.rfl
  | pkcs7unpad => exact unpadBody_checksInOrder pkcs7Unpad_eq_error Iff.rfl Iff.rfl
  | m2unpad => exact unpadBody_checksInOrder m2Unpad_eq_error Iff.rfl Iff.rfl
  | ecbenc pad =>
    refine ⟨fun h => keyOperand_bind_of_illegal h, fun h => ?_⟩
    rw [commandBody, ecbencBody_of_legal (not_not.mp h)]
    exact encryptChecks_checksInOrder (violates_inputLength_of_encrypt (.inl rfl) s)
      (violates_capacity_of_encrypt (.inl rfl) s)
  | ecbdec pad =>
    refine ⟨fun h => keyOperand_bind_of_illegal h, fun h => ?_⟩
    rw [commandBody, ecbdecBody_of_legal (not_not.mp h)]
    exact decryption_checksInOrder Iff.rfl Iff.rfl Iff.rfl
  | cbcenc pad =>
    refine ⟨fun h => keyOperand_bind_of_illegal h, fun h => ?_⟩
    have hkey : LegalKeyLen s := not_not.mp h
    refine ⟨fun hiv => ivOperand_bind_of_bad_length hkey hiv, fun hiv => ?_⟩
    rw [commandBody, cbcencBody_of_legal hkey (not_not.mp hiv)]
    exact encryptChecks_checksInOrder (violates_inputLength_of_encrypt (.inr rfl) s)
      (violates_capacity_of_encrypt (.inr rfl) s)
  | cbcdec pad =>
    refine ⟨fun h => keyOperand_bind_of_illegal h, fun h => ?_⟩
    have hkey : LegalKeyLen s := not_not.mp h
    refine ⟨fun hiv => ivOperand_bind_of_bad_length hkey hiv, fun hiv => ?_⟩
    rw [commandBody, cbcdecBody_of_legal hkey (not_not.mp hiv)]
    exact decryption_checksInOrder Iff.rfl Iff.rfl Iff.rfl

/-- R270: the checks of a command stand in the one fixed order of all checks. -/
theorem commandBody_checkOrder (i : Instr) (s : State) :
    ChecksInOrder (commandBody i s) (Violates i s) checkOrder :=
  (commandBody_checksInOrder i s).of_sublist (checksOf_sublist i) (by decide) fun _ _ => mem_checksOf_of_violates

/-- Settles O18: `commandBody_checkOrder` with `first_error` for a command, `hostCommand_of_illegal` for a word that does
not decode. -/
theorem reportedErrorIsFirstInOrder : Obligations.ReportedErrorIsFirstInOrder := by
  unfold Obligations.ReportedErrorIsFirstInOrder
  refine ⟨fun i s => ?_, fun w s h => ⟨_, hostCommand_of_illegal h s, err_setErr _ _⟩⟩
  obtain ⟨k, e, hk, hcause, hbody, hbefore⟩ | ⟨hnone, u, hbody⟩ := (commandBody_checkOrder i s).first_error
  · exact ⟨_, exec_of_commandBody_error hbody, .inl ⟨k, e, hk, hcause, err_setErr _ _, hbefore⟩⟩
  · exact ⟨_, exec_of_commandBody_ok hbody, .inr ⟨fun e => hnone e (mem_checkOrder e), err_setErr _ _⟩⟩

end Sys2Proof.Machine
end

section
/-! Reset (spec/70_reset_and_hazards.md R300, R301): what either form of the operation does from every state. -/

namespace Sys2Proof.Machine

/-- Every cell reads 0 in the reset state of any instance (R300), existing or not. -/
@[simp] theorem readCell_resetWith (p : Config.Params) (r : Reg) (i : Nat) : readCell (State.resetWith p) r i = 0 := by
  cases r with
  | cmd | status | keylen | nr | ivlen | padbs | dlen | dbuf => rfl
  | key | rk | blk | iv | k1 | k2 | tag => exact congrArg BitVec.toNat (byteAt_replicate _ i)

/-- The host's remaining operations are no cells, so a Reset reads as the reset state does. -/
@[simp] theorem readCell_hostReset (s : State) (r : Reg) (i : Nat) : readCell (hostReset s) r i = 0 :=
  calc readCell (hostReset s) r i
      = readCell (State.resetWith s.params) r i := by cases r <;> rfl
    _ = 0 := readCell_resetWith s.params r i

/-- A Reset that abandons a command is a Reset (R301). -/
theorem step_of_reset {s : State} {rest : List HostOp} {w : Nat}
    (hp : s.pending = .reset :: rest ∨ s.pending = .resetDuring w :: rest) :
    step s = .next (hostReset (takeOp s rest)) := by
  obtain hp | hp := hp
  · rw [step, hp]; rfl
  · rw [step, hp]; rfl

theorem step_of_idle {s : State} (hp : s.pending = []) : step s = .next s := by
  rw [step, hp]

/-- Settles O12: `step_of_reset` with `readCell_hostReset` for the operation, `readCell_resetWith` and `step_of_idle` for
the reset state. -/
theorem resetClearsEveryCell : Obligations.ResetClearsEveryCell := by
  unfold Obligations.ResetClearsEveryCell
  refine ⟨fun s rest w hp => ?_, readCell_resetWith _, step_of_idle rfl⟩
  exact ⟨_, step_of_reset hp, readCell_hostReset _, rfl, rfl⟩

end Sys2Proof.Machine
end

section
/-! The command word and its command (spec/30_encoding.md R92 to R95): the decoder reads back the fields the encoder
writes, and a word that decodes holds exactly the fields of its command. -/

namespace Sys2Proof

/-! From the command to its word. -/

/-- Each field of the word of a well-formed command is the command's own, and the reserved bits are 0. -/
theorem encode_fields (i : Instr) : Laws.EncodeFields.Statement i := by
  cases i with
  | nop => exact Laws.EncodeFields.nop
  | keyexp => exact Laws.EncodeFields.keyexp
  | encblk => exact Laws.EncodeFields.encblk
  | decblk => exact Laws.EncodeFields.decblk
  | subbytes => exact Laws.EncodeFields.subbytes
  | invsubbytes => exact Laws.EncodeFields.invsubbytes
  | shiftrows => exact Laws.EncodeFields.shiftrows
  | invshiftrows => exact Laws.EncodeFields.invshiftrows
  | mixcolumns => exact Laws.EncodeFields.mixcolumns
  | invmixcolumns => exact Laws.EncodeFields.invmixcolumns
  | addroundkey rnd => exact Laws.EncodeFields.addroundkey rnd
  | pkcs7pad => exact Laws.EncodeFields.pkcs7pad
  | pkcs7unpad => exact Laws.EncodeFields.pkcs7unpad
  | m2pad => exact Laws.EncodeFields.m2pad
  | m2unpad => exact Laws.EncodeFields.m2unpad
  | ecbenc pad => exact Laws.EncodeFields.ecbenc pad
  | ecbdec pad => exact Laws.EncodeFields.ecbdec pad
  | cbcenc pad => exact Laws.EncodeFields.cbcenc pad
  | cbcdec pad => exact Laws.EncodeFields.cbcdec pad
  | cmackeys => exact Laws.EncodeFields.cmackeys
  | cmac => exact Laws.EncodeFields.cmac

theorem padOfCode_padCode (p : PadScheme) : padOfCode (padCode p) = some p := by cases p <;> rfl

theorem decodeMode_padCode (mk : PadScheme → Instr) (p : PadScheme) : decodeMode mk (padCode p) 0 = .ok (mk p) := by
  rw [decodeMode, padOfCode_padCode]
  rfl

/-- The opcode map has a row for every command, and the row accepts the command's fields. -/
theorem decodeFields_of_instr (i : Instr) : decodeFields (opcodeOf i) (padFieldOf i) (rndFieldOf i) = .ok i := by
  cases i with
  | ecbenc pad => exact decodeMode_padCode .ecbenc pad
  | ecbdec pad => exact decodeMode_padCode .ecbdec pad
  | cbcenc pad => exact decodeMode_padCode .cbcenc pad
  | cbcdec pad => exact decodeMode_padCode .cbcdec pad
  | nop | keyexp | encblk | decblk | subbytes | invsubbytes | shiftrows | invshiftrows | mixcolumns | invmixcolumns
  | addroundkey _ | pkcs7pad | pkcs7unpad | m2pad | m2unpad | cmackeys | cmac => rfl

/-- Settles O1: the fields of the word (`encode_fields`) are the ones the command's row accepts. -/
theorem decodeOfEncode : Obligations.DecodeOfEncode := by
  unfold Obligations.DecodeOfEncode
  intro i hi
  obtain ⟨hop, hpad, hrnd, hrsv⟩ := encode_fields i hi
  rw [decode, hrsv, hop, hpad, hrnd]
  exact decodeFields_of_instr i

/-! From a word that decodes to its command. -/

theorem decodePlain_eq_ok {c i : Instr} {pad rnd : Nat} :
    decodePlain c pad rnd = .ok i ↔ pad = 0 ∧ rnd = 0 ∧ i = c := by
  unfold decodePlain
  by_cases hpad : pad = 0 <;> by_cases hrnd : rnd = 0 <;> simp [hpad, hrnd, eq_comm]

theorem decodeRound_eq_ok {i : Instr} {pad rnd : Nat} :
    decodeRound pad rnd = .ok i ↔ pad = 0 ∧ i = .addroundkey rnd := by
  unfold decodeRound
  by_cases hpad : pad = 0 <;> simp [hpad, eq_comm]

theorem padOfCode_eq_some {pad : Nat} {p : PadScheme} : padOfCode pad = some p ↔ pad = padCode p := by
  constructor
  · intro h
    unfold padOfCode at h
    split_ifs at h <;> cases h <;> assumption
  · rintro rfl
    exact padOfCode_padCode p

theorem decodeMode_eq_ok {mk : PadScheme → Instr} {i : Instr} {pad rnd : Nat} :
    decodeMode mk pad rnd = .ok i ↔ ∃ p, pad = padCode p ∧ rnd = 0 ∧ i = mk p := by
  simp only [← padOfCode_eq_some]
  unfold decodeMode
  cases padOfCode pad with
  | none => simp
  | some p => by_cases hrnd : rnd = 0 <;> simp [hrnd, eq_comm]

/-- op, pad and rnd are the fields of i, and i is well-formed where the round index fits its field;
`hasFields_of_decodeFields` ties it to the decoder. -/
def HasFields (i : Instr) (op pad rnd : Nat) : Prop :=
  opcodeOf i = op ∧ padFieldOf i = pad ∧ rndFieldOf i = rnd ∧ (rnd < 16 → i.wellFormed = true)

section

variable {i : Instr} {op pad rnd : Nat}

theorem hasFields_of_decodePlain {c : Instr} (h : decodePlain c pad rnd = .ok i) (hc : HasFields c op 0 0) :
    HasFields i op pad rnd := by
  obtain ⟨rfl, rfl, rfl⟩ := decodePlain_eq_ok.mp h
  exact hc

theorem hasFields_of_decodeRound (h : decodeRound pad rnd = .ok i) : HasFields i 0x16 pad rnd := by
  obtain ⟨rfl, rfl⟩ := decodeRound_eq_ok.mp h
  exact ⟨rfl, rfl, rfl, fun hr => decide_eq_true hr⟩

theorem hasFields_of_decodeMode {mk : PadScheme → Instr} (h : decodeMode mk pad rnd = .ok i)
    (hmk : ∀ p, HasFields (mk p) op (padCode p) 0) : HasFields i op pad rnd := by
  obtain ⟨p, rfl, rfl, rfl⟩ := decodeMode_eq_ok.mp h
  exact hmk p

/-- Row by row of the map, in the order of `opcodes`: a row answers only the command whose fields it has accepted. -/
theorem hasFields_of_decodeFields (h : decodeFields op pad rnd = .ok i) : HasFields i op pad rnd := by
  have hop : op ∈ opcodes := ((decodeFields_ok_iff op pad rnd).mp ⟨i, h⟩).1
  fin_cases hop
  iterate 10 exact hasFields_of_decodePlain h ⟨rfl, rfl, rfl, fun _ => rfl⟩
  · exact hasFields_of_decodeRound h
  iterate 4 exact hasFields_of_decodePlain h ⟨rfl, rfl, rfl, fun _ => rfl⟩
  iterate 4 exact hasFields_of_decodeMode h fun p => ⟨rfl, rfl, rfl, fun _ => rfl⟩
  iterate 2 exact hasFields_of_decodePlain h ⟨rfl, rfl, rfl, fun _ => rfl⟩

end

/-- A word is the sum of its fields at their places (R91). -/
theorem toNat_eq_sum_of_fields (w : BitVec 16) :
    w.toNat = fieldOp w + 256 * fieldPad w + 1024 * fieldRnd w + 16384 * fieldRsv w := by
  have := w.isLt
  unfold fieldOp fieldPad fieldRnd fieldRsv
  omega

theorem decode_eq_ok {w : BitVec 16} {i : Instr} :
    decode w = .ok i ↔ fieldRsv w = 0 ∧ decodeFields (fieldOp w) (fieldPad w) (fieldRnd w) = .ok i := by
  unfold decode
  by_cases h : fieldRsv w = 0 <;> simp [h]

/-- Settles O2: the word and the encoding of its command have the same fields, and a word is the sum of its fields. -/
theorem encodeOfDecode : Obligations.EncodeOfDecode := by
  unfold Obligations.EncodeOfDecode
  intro w i h
  obtain ⟨hrsv, hfields⟩ := decode_eq_ok.mp h
  obtain ⟨hop, hpad, hrnd, hwf⟩ := hasFields_of_decodeFields hfields
  have hsum := toNat_eq_sum_of_fields w
  rw [hrsv, Nat.mul_zero, Nat.add_zero, ← hop, ← hpad, ← hrnd] at hsum
  refine ⟨hwf (Nat.mod_lt _ (by decide)), ?_⟩
  rw [encode, ← hsum, BitVec.ofNat_toNat, BitVec.setWidth_eq]

/-- Settles O4: each word of the map is the encoding of its command, so `decodeOfEncode` reads it; the words of
ADDROUNDKEY are those of `decode_addroundkey_word`. -/
theorem opcodeMapDecodes : Obligations.OpcodeMapDecodes := by
  unfold Obligations.OpcodeMapDecodes
  refine ⟨fun row hrow => ?_, fun r hr => Machine.decode_addroundkey_word hr⟩
  have hword : row.1 = encode row.2 ∧ row.2.wellFormed = true := by
    revert row
    decide
  rw [hword.1]
  exact decodeOfEncode row.2 hword.2

end Sys2Proof
end

section
/-! One operation of the host (spec/20_memory.md R62 to R72): accesses by name, the default BUSMAP as a table of slots,
and the operations that stop. -/

namespace Sys2Proof.Machine

open Sys2Proof.Claims

/-! A write of CMD (R39, R62). -/

theorem step_write_cmd {s : State} {rest : List HostOp} {v : Nat} (hp : s.pending = .write .cmd 0 v :: rest) :
    step s = hostCommand (BitVec.ofNat 16 v) (takeOp s rest) :=
  step_write_of_exists rfl hp

/-- Settles O6: the step is the host's command word (`step_write_cmd`), which decodes to i. -/
theorem stepRunsDecodedCommand : Obligations.StepRunsDecodedCommand := by
  unfold Obligations.StepRunsDecodedCommand
  intro s rest v i hp hdecode
  rw [step_write_cmd hp, hostCommand_of_legal hdecode]
  rfl

/-- Settles O7, by `step_of_idle`. -/
theorem idleStepChangesNothing : Obligations.IdleStepChangesNothing := by
  unfold Obligations.IdleStepChangesNothing
  exact fun _ => step_of_idle

/-- Every command ends in a next state (R63). -/
theorem exec_completes (i : Instr) (s : State) : ∃ t, exec i s = .next t := by
  rw [exec_eq_deliver]
  cases commandBody i s with
  | ok u => exact ⟨_, deliver_ok s u⟩
  | error e => exact ⟨_, deliver_error s e⟩

/-- A command word runs one command to its end, or raises IllegalCommand (R39, R92). -/
theorem hostCommand_cases (w : BitVec 16) (s : State) :
    (∃ i, hostCommand w s = exec i { s with cmd := w }) ∨
      hostCommand w s = .next (State.setErr { s with cmd := w } (errCode .illegalCommand)) := by
  by_cases h : ∃ i, decode w = .ok i
  · obtain ⟨i, hi⟩ := h
    exact .inl ⟨i, hostCommand_of_legal hi s⟩
  · exact .inr (hostCommand_of_illegal (not_exists.mp h) s)

theorem hostCommand_completes (w : BitVec 16) (s : State) : ∃ t, hostCommand w s = .next t := by
  obtain ⟨i, h⟩ | h := hostCommand_cases w s
  · rw [h]; exact exec_completes i _
  · exact ⟨_, h⟩

/-! Writes of scalars (R66). -/

theorem truncLength_eq (p : Config.Params) (v : Nat) :
    truncLength p v = if p.maxLen = none then v else v % 2 ^ p.lenW := by
  unfold truncLength
  cases p.maxLen <;> rfl

/-- Settles O9: the written cell exists, so the step is `hostWrite`, which keeps the low bits; the command that a
write of CMD runs completes and keeps CMD. -/
theorem scalarWritesKeepLowBits : Obligations.ScalarWritesKeepLowBits := by
  unfold Obligations.ScalarWritesKeepLowBits
  intro s rest v
  refine ⟨fun hp => ?_, fun hp => ?_, fun hp => ?_, fun hp => ?_, fun hp => ?_⟩
  · exact ⟨_, step_write_of_exists rfl hp, BitVec.toNat_ofNat v 8⟩
  · exact ⟨_, step_write_of_exists rfl hp, BitVec.toNat_ofNat v 8⟩
  · exact ⟨_, step_write_of_exists rfl hp, BitVec.toNat_ofNat v 8⟩
  · exact ⟨_, step_write_of_exists rfl hp, truncLength_eq s.params v⟩
  · obtain ⟨t, ht⟩ := hostCommand_completes (BitVec.ofNat 16 v) (takeOp s rest)
    obtain ⟨hcmd, -⟩ := errorChangesOnlyErr _ _ _ ht
    exact ⟨t, (step_write_cmd hp).trans ht, by rw [hcmd]; exact BitVec.toNat_ofNat v 16⟩

/-! The default BUSMAP (R72). -/

/-- The offset and width of the slot of the cell (r, i); `busCell_eq_some` ties it to the model's table. -/
def busSlot (r : Reg) (i : Nat) : Nat × Nat :=
  match r with
  | .cmd => (0x0000, 4)
  | .status => (0x0004, 4)
  | .keylen => (0x0008, 4)
  | .ivlen => (0x000c, 4)
  | .padbs => (0x0010, 4)
  | .nr => (0x0014, 4)
  | .dlen => (0x0018, 4)
  | .key => (0x0020 + i, 1)
  | .iv => (0x0040 + i, 1)
  | .blk => (0x0050 + i, 1)
  | .k1 => (0x0060 + i, 1)
  | .k2 => (0x0070 + i, 1)
  | .tag => (0x0080 + i, 1)
  | .rk => (0x0100 + i, 1)
  | .dbuf => (0x1000 + i, 1)

/-- The scalars stand in slots of their own. -/
theorem busScalar_eq_some {p : Config.Params} {offset : Nat} {r : Reg} {i : Nat} :
    busScalar offset = some r ∧ i = 0 ↔ cellExists p r i = true ∧ busSlot r i = (offset, 4) := by
  constructor
  · rintro ⟨h, rfl⟩
    unfold busScalar at h
    repeat' split at h
    all_goals grind [cellExists, busSlot]
  · rintro ⟨he, hslot⟩
    cases r with
    | cmd | status | keylen | ivlen | padbs | nr | dlen => cases hslot; exact ⟨rfl, of_decide_eq_true he⟩
    | key | iv | blk | k1 | k2 | tag | rk | dbuf => cases hslot

/-- The slots of the byte registers lie one after another, so the comparisons of `busByte` single out the register. -/
theorem busByte_eq_some {p : Config.Params} {offset : Nat} {r : Reg} {i : Nat} :
    busByte p offset = some (r, i) ↔ cellExists p r i = true ∧ busSlot r i = (offset, 1) := by
  unfold busByte
  constructor
  · intro h
    repeat' split at h
    all_goals grind [cellExists, busSlot]
  · rintro ⟨he, hslot⟩
    cases r with
    | cmd | status | keylen | ivlen | padbs | nr | dlen => cases hslot
    | key | iv | blk | k1 | k2 | tag | rk =>
      obtain ⟨rfl, -⟩ := Prod.mk.inj hslot
      have hi := of_decide_eq_true he
      simp (disch := omega) only [if_neg, if_pos, Nat.add_sub_cancel_left]
    | dbuf =>
      obtain ⟨rfl, -⟩ := Prod.mk.inj hslot
      have hi : fitsBuffer p (i + 1) = true := he
      simp (disch := omega) only [if_neg, Nat.add_sub_cancel_left, hi, if_true]

/-- The table of R72: an access is defined exactly at the slot of an existing cell, and reaches that cell. -/
theorem busCell_eq_some {p : Config.Params} {offset size : Nat} {r : Reg} {i : Nat} :
    busCell p offset size = some (r, i) ↔ cellExists p r i = true ∧ busSlot r i = (offset, size) := by
  unfold busCell
  by_cases h4 : size = 4
  · rw [if_pos h4, h4, ← busScalar_eq_some]
    simp [eq_comm]
  · rw [if_neg h4]
    by_cases h1 : size = 1
    · rw [if_pos h1, h1, busByte_eq_some]
    · have hwidth : (busSlot r i).2 = 4 ∨ (busSlot r i).2 = 1 := by cases r <;> simp [busSlot]
      rw [if_neg h1]
      refine iff_of_false nofun fun ⟨_, hslot⟩ => ?_
      rw [hslot] at hwidth
      exact hwidth.elim h4 h1

/-! Accesses through the bus, and accesses that stop. -/

theorem withBusCell_of_some {offset size : Nat} {s : State} {r : Reg} {i : Nat}
    (h : busCell s.params offset size = some (r, i)) (k : Reg → Nat → State → Result State) :
    withBusCell offset size k s = k r i s := by
  rw [withBusCell, h]

theorem withBusCell_of_none {offset size : Nat} {s : State} (h : busCell s.params offset size = none)
    (k : Reg → Nat → State → Result State) :
    withBusCell offset size k s = .refused (.strayBusAccess offset size) := by
  rw [withBusCell, h]

theorem withCell_of_missing {r : Reg} {i : Nat} {s : State} (h : cellExists s.params r i = false)
    (k : State → Result State) : withCell r i k s = .fault (.noSuchCell r i) := by
  simp [withCell, h]

theorem step_busRead {s : State} {rest : List HostOp} {offset size : Nat} {r : Reg} {i : Nat}
    (h : busCell s.params offset size = some (r, i)) (hp : s.pending = .busRead offset size :: rest) :
    step s = hostRead r i (takeOp s rest) := by
  rw [step, hp]
  exact withBusCell_of_some (s := takeOp s rest) h _

theorem step_busWrite {s : State} {rest : List HostOp} {offset size v : Nat} {r : Reg} {i : Nat}
    (h : busCell s.params offset size = some (r, i)) (hp : s.pending = .busWrite offset size v :: rest) :
    step s = hostWrite r i v (takeOp s rest) := by
  rw [step, hp]
  exact withBusCell_of_some (s := takeOp s rest) h _

/-- Settles O11: `busCell_eq_some` says which accesses are defined, and a slot is one offset and one width; the bus
access and the named access of its cell take the same operation off the list and do the same. -/
theorem busMapNamesEveryCellOnce : Obligations.BusMapNamesEveryCellOnce := by
  unfold Obligations.BusMapNamesEveryCellOnce
  intro p
  refine ⟨fun r i he => ⟨_, _, busCell_eq_some.mpr ⟨he, rfl⟩⟩, fun offset size r i h => (busCell_eq_some.mp h).1,
    fun offset size offset' size' c h h' => ?_, ?_⟩
  · obtain ⟨-, hslot⟩ := busCell_eq_some.mp h
    obtain ⟨-, hslot'⟩ := busCell_eq_some.mp h'
    exact Prod.mk.inj (hslot.symm.trans hslot')
  · rintro s rest offset size i v reg rfl h
    obtain ⟨he, -⟩ := busCell_eq_some.mp h
    refine ⟨fun hp => ?_, fun hp => ?_⟩
    · rw [step_busRead h hp, step_read_of_exists (s := { s with pending := .read reg i :: rest }) he rfl]
      rfl
    · rw [step_busWrite h hp, step_write_of_exists (s := { s with pending := .write reg i v :: rest }) he rfl]
      rfl

/-- Settles O10: an index outside the register fails `withCell`, a stray bus access `withBusCell`. -/
theorem missingCellsStop : Obligations.MissingCellsStop := by
  unfold Obligations.MissingCellsStop
  refine fun s rest r i v offset size => ⟨fun h hp => ?_, fun h hp => ?_⟩
  · obtain hp | hp := hp <;> rw [step, hp] <;> exact withCell_of_missing (s := takeOp s rest) h _
  · obtain hp | hp := hp <;> rw [step, hp] <;> exact withBusCell_of_none (s := takeOp s rest) h _

end Sys2Proof.Machine
end

section
/-! The frame of a command (spec/10_state.md R22, spec/20_memory.md R65): which registers it can change, and the bytes
of DBUF it stores to. -/

namespace Sys2Proof.Machine

open Sys2Proof.Claims

/-! Which registers a command can change (R22). -/

/-- u is s but for the registers R22 lets the command i write; `commandBody_frame` ties it to every command. -/
structure CommandFrame (i : Instr) (s u : State) : Prop where
  operands : u.cmd = s.cmd ∧ u.key = s.key ∧ u.keylen = s.keylen ∧ u.iv = s.iv ∧ u.ivlen = s.ivlen ∧ u.padbs = s.padbs
  schedule : i ≠ .keyexp → u.rk = s.rk ∧ u.nr = s.nr ∧ u.status = s.status
  blk : ¬ WritesBlk i → u.blk = s.blk
  dbuf : ¬ WritesDbuf i → u.dbuf = s.dbuf
  dlen : ¬ WritesDlen i → u.dlen = s.dlen
  subkeys : i ≠ .cmackeys → u.k1 = s.k1 ∧ u.k2 = s.k2
  tag : i ≠ .cmac → u.tag = s.tag
  err : u.err = s.err
  reserved : statusReserved u.status = statusReserved s.status
  own : u.params = s.params ∧ u.pending = s.pending ∧ u.readData = s.readData

/-- The scheduled flag is the one bit of STATUS a body sets. -/
theorem commandFrame_keyexp (s : State) (rk : Vector Byte 240) (nr : BitVec 8) :
    CommandFrame .keyexp s (State.setSchedValid { s with rk := rk, nr := nr }) := by
  constructor <;> simp [State.err]

theorem commandFrame_self (i : Instr) (s : State) : CommandFrame i s s := by
  constructor <;> simp

theorem commandFrame_blk {i : Instr} {s : State} {b : Block} (h : WritesBlk i) :
    CommandFrame i s { s with blk := b } := by
  constructor <;> simp [State.err, h]

theorem commandFrame_buffer {i : Instr} {s : State} {m : Memory} {n : Nat} (hm : WritesDbuf i) (hn : WritesDlen i) :
    CommandFrame i s { s with dbuf := m, dlen := n } := by
  constructor <;> simp [State.err, hm, hn]

theorem commandFrame_dlen {i : Instr} {s : State} {n : Nat} (h : WritesDlen i) :
    CommandFrame i s { s with dlen := n } := by
  constructor <;> simp [State.err, h]

/-- A command that succeeds changes only what R22 lists for it. -/
theorem commandBody_frame {i : Instr} {s u : State} (h : commandBody i s = .ok u) : CommandFrame i s u := by
  cases i with
  | nop => cases h; exact commandFrame_self _ _
  | subbytes | invsubbytes | shiftrows | invshiftrows | mixcolumns | invmixcolumns =>
    cases h; exact commandFrame_blk trivial
  | keyexp => obtain ⟨-, rfl⟩ := keyexpBody_eq_ok.mp h; exact commandFrame_keyexp _ _ _
  | encblk | decblk => obtain ⟨-, rfl⟩ := blockBody_eq_ok.mp h; exact commandFrame_blk trivial
  | addroundkey r => obtain ⟨-, -, rfl⟩ := addroundkeyBody_eq_ok.mp h; exact commandFrame_blk trivial
  | pkcs7pad | m2pad => obtain ⟨-, -, -, rfl⟩ := padBody_eq_ok.mp h; exact commandFrame_buffer trivial trivial
  | pkcs7unpad | m2unpad => obtain ⟨-, _, -, rfl⟩ := unpadBody_eq_ok.mp h; exact commandFrame_dlen trivial
  | ecbenc pad => obtain ⟨-, -, rfl⟩ := ecbencBody_eq_ok.mp h; exact commandFrame_buffer trivial trivial
  | cbcenc pad => obtain ⟨-, -, -, rfl⟩ := cbcencBody_eq_ok.mp h; exact commandFrame_buffer trivial trivial
  | ecbdec pad =>
    obtain ⟨-, -, hcommit⟩ := ecbdecBody_eq_ok.mp h
    obtain ⟨_, -, rfl⟩ := commitDecrypted_eq_ok.mp hcommit
    exact commandFrame_buffer trivial trivial
  | cbcdec pad =>
    obtain ⟨-, -, -, hcommit⟩ := cbcdecBody_eq_ok.mp h
    obtain ⟨_, -, rfl⟩ := commitDecrypted_eq_ok.mp hcommit
    exact commandFrame_buffer trivial trivial
  | cmackeys => obtain ⟨-, rfl⟩ := cmackeysBody_eq_ok.mp h; constructor <;> simp [State.err]
  | cmac => obtain ⟨-, -, rfl⟩ := cmacBody_eq_ok.mp h; constructor <;> simp [State.err]

/-- How a command ends: a body that keeps its frame, with ERR set; an error is the body that changes nothing (R262). -/
theorem exec_frame {i : Instr} {s t : State} (h : exec i s = .next t) :
    ∃ u e, CommandFrame i s u ∧ t = u.setErr e := by
  rw [exec_eq_deliver] at h
  obtain ⟨u, hbody, rfl⟩ | ⟨e, -, rfl⟩ := deliver_cases h
  · exact ⟨u, 0, commandBody_frame hbody, rfl⟩
  · exact ⟨s, errCode e, commandFrame_self i s, rfl⟩

/-- Settles O16: setting ERR touches no register of the frame but STATUS, and there ERR alone. -/
theorem onlyListedCommandsWrite : Obligations.OnlyListedCommandsWrite := by
  unfold Obligations.OnlyListedCommandsWrite
  intro i s t h
  obtain ⟨u, e, hframe, rfl⟩ := exec_frame h
  obtain ⟨hparams, hpending, hread⟩ := hframe.own
  refine ⟨hframe.operands, fun hi => ?_, hframe.blk, fun hi a => ?_, hframe.dlen, hframe.subkeys, hframe.tag,
    hparams, hpending, hread, (statusReserved_statusWithErr _ _).trans hframe.reserved⟩
  · obtain ⟨hrk, hnr, hstatus⟩ := hframe.schedule hi
    exact ⟨hrk, hnr, (schedValid_setErr u e).trans (congrArg statusSchedValid hstatus)⟩
  · rw [setErr_dbuf, hframe.dbuf hi]

/-! Which bytes of DBUF a command stores to (R193, R197, R213, R217, R220, R223). -/

/-- u holds n stored bytes of DBUF from address a on, and where the command i stores, they lie below MAXLEN. -/
def Stores (i : Instr) (s u : State) : Prop :=
  (∃ l : List Byte, l.length = (storedRange i s).2 ∧ u.dbuf = s.dbuf.writeBytes (storedRange i s).1 l) ∧
    (WritesDbuf i → Fits s ((storedRange i s).1 + (storedRange i s).2))

theorem length_joinBlocks_aligned {bs : List Block} {n : Nat} (hn : n % 16 = 0) (h : bs.length = n / 16) :
    (joinBlocks bs).length = n := by
  rw [joinBlocks_length, h]; omega

theorem length_applyPad (s : State) (pad : PadScheme) : (applyPad (message s) pad).length = paddedLength s.dlen pad :=
  length_of_isPadded (isPadded_iff.mpr rfl)

theorem stores_nothing {i : Instr} {s u : State} (hrange : storedRange i s = (0, 0)) (hm : u.dbuf = s.dbuf)
    (hi : ¬ WritesDbuf i) : Stores i s u := by
  rw [Stores, hrange]
  exact ⟨⟨[], rfl, hm⟩, fun h => absurd h hi⟩

theorem stores_of_encryption {i : Instr} {pad : PadScheme} {s : State} {c : List Block}
    (hrange : storedRange i s = (0, paddedLength s.dlen pad)) (hchecks : encryptChecks pad s = .ok ())
    (hc : c.length = (blocksOf (applyPad (message s) pad)).length) : Stores i s (commitEncrypted s (joinBlocks c)) := by
  obtain ⟨halign, -, hfit⟩ := encryptChecks_eq_ok.mp hchecks
  rw [blocksOf_length, length_applyPad] at hc
  rw [Stores, hrange, Nat.zero_add]
  exact ⟨⟨_, length_joinBlocks_aligned (paddedLength_aligned halign) hc, rfl⟩, fun _ => fitsBuffer_iff.mp hfit⟩

theorem stores_of_decryption {i : Instr} {pad : PadScheme} {s u : State} {c : List Block}
    (hrange : storedRange i s = (0, s.dlen)) (hchecks : decryptChecks s = .ok ())
    (hc : c.length = (blocksOf (message s)).length) (hu : commitDecrypted pad s (joinBlocks c) = .ok u) :
    Stores i s u := by
  obtain ⟨halign, hfit⟩ := decryptChecks_eq_ok.mp hchecks
  obtain ⟨_, -, rfl⟩ := commitDecrypted_eq_ok.mp hu
  rw [blocksOf_length, message_length] at hc
  rw [Stores, hrange, Nat.zero_add]
  exact ⟨⟨_, length_joinBlocks_aligned halign hc, rfl⟩, fun _ => fitsBuffer_iff.mp hfit⟩

theorem stores_of_padding {i : Instr} {fill : Nat → List Byte} {s u : State}
    (hrange : storedRange i s = (s.dlen, padCount s.dlen s.padbs.toNat))
    (hfill : ∀ n, 0 < n → (fill n).length = n) (hu : padBody fill s = .ok u) : Stores i s u := by
  obtain ⟨hb, -, hfit, rfl⟩ := padBody_eq_ok.mp hu
  rw [Stores, hrange]
  exact ⟨⟨_, hfill _ (padCount_pos hb), rfl⟩, fun _ => fitsBuffer_iff.mp hfit⟩

/-- A command that succeeds stores the bytes of `storedRange` and no others. -/
theorem commandBody_stores {i : Instr} {s u : State} (h : commandBody i s = .ok u) : Stores i s u := by
  cases i with
  | nop | subbytes | invsubbytes | shiftrows | invshiftrows | mixcolumns | invmixcolumns | keyexp | encblk | decblk
  | addroundkey _ | pkcs7unpad | m2unpad | cmackeys | cmac =>
    exact stores_nothing rfl ((commandBody_frame h).dbuf not_false) not_false
  | pkcs7pad => exact stores_of_padding rfl (fun n _ => pkcs7Fill_length n) h
  | m2pad => exact stores_of_padding rfl (fun _ hn => m2Fill_length hn) h
  | ecbenc pad =>
    obtain ⟨-, hchecks, rfl⟩ := ecbencBody_eq_ok.mp h
    exact stores_of_encryption rfl hchecks (ecbEncrypt_length _ _ _)
  | cbcenc pad =>
    obtain ⟨-, -, hchecks, rfl⟩ := cbcencBody_eq_ok.mp h
    exact stores_of_encryption rfl hchecks (cbcEncrypt_length _ _ _ _)
  | ecbdec pad =>
    obtain ⟨-, hchecks, hcommit⟩ := ecbdecBody_eq_ok.mp h
    exact stores_of_decryption rfl hchecks (ecbDecrypt_length _ _ _) hcommit
  | cbcdec pad =>
    obtain ⟨-, -, hchecks, hcommit⟩ := cbcdecBody_eq_ok.mp h
    exact stores_of_decryption rfl hchecks (cbcDecrypt_length _ _ _ _) hcommit

/-- Settles O19: a success stores as `commandBody_stores` says, an error keeps DBUF (R262). -/
theorem storesStayInRange : Obligations.StoresStayInRange := by
  unfold Obligations.StoresStayInRange
  intro i s t h
  rw [exec_eq_deliver] at h
  obtain ⟨u, hbody, rfl⟩ | ⟨e, -, rfl⟩ := deliver_cases h
  · obtain ⟨⟨l, hlen, hm⟩, hfit⟩ := commandBody_stores hbody
    refine ⟨fun a ha => ?_, fun _ => hfit, fun herr => absurd (err_setErr u 0) herr⟩
    rw [setErr_dbuf, hm]
    exact read_writeBytes_outside s.dbuf _ l (by rwa [hlen])
  · refine ⟨fun _ _ => rfl, fun herr => ?_, fun _ _ => rfl⟩
    rw [err_setErr] at herr
    exact absurd herr (errCode_ne_zero e)

end Sys2Proof.Machine
end

section
/-! The invariant (spec/10_state.md R22, R25, R29, R40; spec/93_implementation_defined.md U7) and the safe host
(spec/20_memory.md R62): both hold after every step. -/

namespace Sys2Proof.Machine

open Sys2Proof.Claims

/-! The reset state (R300). -/

theorem inv_resetWith {p : Config.Params} (h : p.legal = true) : Inv (State.resetWith p) := by
  have hlen : lengthFits p 0 = true := by
    unfold lengthFits
    split
    · rfl
    · exact decide_eq_true (Nat.two_pow_pos _)
  have hreserved : statusReserved 0 = 0 ∧ (statusErr 0).toNat ≤ 8 := by decide
  have hinvalid : statusSchedValid 0 ≠ true := by decide
  refine ⟨⟨h, ⟨List.Pairwise.nil, nofun⟩, nofun, hlen⟩, hreserved, ?_⟩
  exact (if_neg hinvalid).mpr ⟨rfl, rfl⟩

/-- Settles O13, by `inv_resetWith`. -/
theorem resetSatisfiesInv : Obligations.ResetSatisfiesInv := by
  unfold Obligations.ResetSatisfiesInv
  exact ⟨inv_resetWith (by decide), fun _ => inv_resetWith⟩

/-! The length in DLEN (R7, R29). -/

theorem lengthFits_of_fits {s : State} {n : Nat} (hlegal : s.params.legal = true) (h : Fits s n) :
    lengthFits s.params n = true := by
  unfold Config.Params.legal at hlegal
  unfold lengthFits
  split
  · rfl
  · next m hm =>
    simp only [hm, Bool.and_eq_true, decide_eq_true_eq] at hlegal
    have hle : n ≤ m := h m hm
    exact decide_eq_true (by omega)

theorem lengthFits_truncLength (p : Config.Params) (v : Nat) : lengthFits p (truncLength p v) = true := by
  obtain ⟨maxLen, lenW⟩ := p
  cases maxLen with
  | none => rfl
  | some m => exact decide_eq_true (Nat.mod_lt v (Nat.two_pow_pos lenW))

/-- Unpadding only cuts bytes off the end (R211). -/
theorem length_le_of_applyUnpad {pad : PadScheme} {p r : List Byte} (h : applyUnpad p pad = .ok r) :
    r.length ≤ p.length := by
  cases pad with
  | none => rw [Except.ok.inj h]
  | pkcs7 => obtain ⟨n, -, -, rfl⟩ := pkcs7Unpad_eq_ok.mp h; simp
  | m2 => obtain ⟨n, -, rfl⟩ := m2Unpad_eq_ok.mp h; simp

theorem fits_of_encryption {pad : PadScheme} {s : State} {c : List Block} (hchecks : encryptChecks pad s = .ok ())
    (hc : c.length = (blocksOf (applyPad (message s) pad)).length) :
    Fits s (commitEncrypted s (joinBlocks c)).dlen := by
  obtain ⟨halign, -, hfit⟩ := encryptChecks_eq_ok.mp hchecks
  rw [blocksOf_length, length_applyPad] at hc
  rw [commitEncrypted, length_joinBlocks_aligned (paddedLength_aligned halign) hc]
  exact fitsBuffer_iff.mp hfit

theorem fits_of_decryption {pad : PadScheme} {s u : State} {c : List Block} (hchecks : decryptChecks s = .ok ())
    (hc : c.length = (blocksOf (message s)).length) (hu : commitDecrypted pad s (joinBlocks c) = .ok u) :
    Fits s u.dlen := by
  obtain ⟨halign, hfit⟩ := decryptChecks_eq_ok.mp hchecks
  obtain ⟨r, hr, rfl⟩ := commitDecrypted_eq_ok.mp hu
  rw [blocksOf_length, message_length] at hc
  have hle := length_le_of_applyUnpad hr
  rw [length_joinBlocks_aligned halign hc] at hle
  exact fits_of_le hle (fitsBuffer_iff.mp hfit)

/-- The length a command leaves fits DBUF, or is the one it found. -/
theorem dlen_of_commandBody {i : Instr} {s u : State} (h : commandBody i s = .ok u) :
    u.dlen = s.dlen ∨ Fits s u.dlen := by
  cases i with
  | nop | subbytes | invsubbytes | shiftrows | invshiftrows | mixcolumns | invmixcolumns | keyexp | encblk | decblk
  | addroundkey _ | cmackeys | cmac => exact .inl ((commandBody_frame h).dlen not_false)
  | pkcs7pad | m2pad =>
    obtain ⟨-, -, hfit, rfl⟩ := padBody_eq_ok.mp h
    exact .inr (fitsBuffer_iff.mp hfit)
  | pkcs7unpad =>
    obtain ⟨hfit, r, hr, rfl⟩ := unpadBody_eq_ok.mp h
    exact .inr (fits_of_le (message_length s ▸ length_le_of_applyUnpad (pad := .pkcs7) hr) (fitsBuffer_iff.mp hfit))
  | m2unpad =>
    obtain ⟨hfit, r, hr, rfl⟩ := unpadBody_eq_ok.mp h
    exact .inr (fits_of_le (message_length s ▸ length_le_of_applyUnpad (pad := .m2) hr) (fitsBuffer_iff.mp hfit))
  | ecbenc pad =>
    obtain ⟨-, hchecks, rfl⟩ := ecbencBody_eq_ok.mp h
    exact .inr (fits_of_encryption hchecks (ecbEncrypt_length _ _ _))
  | cbcenc pad =>
    obtain ⟨-, -, hchecks, rfl⟩ := cbcencBody_eq_ok.mp h
    exact .inr (fits_of_encryption hchecks (cbcEncrypt_length _ _ _ _))
  | ecbdec pad =>
    obtain ⟨-, hchecks, hcommit⟩ := ecbdecBody_eq_ok.mp h
    exact .inr (fits_of_decryption hchecks (ecbDecrypt_length _ _ _) hcommit)
  | cbcdec pad =>
    obtain ⟨-, -, hchecks, hcommit⟩ := cbcdecBody_eq_ok.mp h
    exact .inr (fits_of_decryption hchecks (cbcDecrypt_length _ _ _ _) hcommit)

/-! A command keeps the invariant. -/

theorem bufferInv_of_commandBody {i : Instr} {s u : State} (hinv : BufferInv s) (h : commandBody i s = .ok u) :
    BufferInv u := by
  obtain ⟨hlegal, hwf, hbelow, hlen⟩ := hinv
  obtain ⟨⟨l, hl, hm⟩, hfit⟩ := commandBody_stores h
  have hframe := commandBody_frame h
  rw [BufferInv, hframe.own.1]
  refine ⟨hlegal, hm ▸ writeBytes_wf hwf _ l, fun c hc => ?_, ?_⟩
  · by_cases hi : WritesDbuf i
    · rw [hm] at hc
      obtain hc | ⟨-, hc⟩ := mem_writeBytes hc
      · exact hbelow c hc
      · rw [hl] at hc
        exact fitsBuffer_iff.mpr (fits_of_le hc (hfit hi))
    · exact hbelow c (hframe.dbuf hi ▸ hc)
  · obtain hdlen | hdlen := dlen_of_commandBody h
    · rw [hdlen]; exact hlen
    · exact lengthFits_of_fits hlegal hdlen

theorem scheduleInv_of_commandBody {i : Instr} {s u : State} (hinv : ScheduleInv s) (h : commandBody i s = .ok u) :
    ScheduleInv u := by
  by_cases hi : i = .keyexp
  · subst hi
    obtain ⟨hkey, rfl⟩ := keyexpBody_eq_ok.mp h
    rw [ScheduleInv, if_pos (schedValid_setSchedValid _)]
    exact ⟨keyBytes s, (keyBytes_length hkey).2, rfl, rfl⟩
  · obtain ⟨hrk, hnr, hstatus⟩ := (commandBody_frame h).schedule hi
    rw [ScheduleInv, State.schedValid, hrk, hnr, hstatus]
    exact hinv

theorem inv_of_commandBody {i : Instr} {s u : State} (hinv : Inv s) (h : commandBody i s = .ok u) : Inv u := by
  obtain ⟨hbuffer, ⟨hreserved, herr⟩, hschedule⟩ := hinv
  have hframe := commandBody_frame h
  exact ⟨bufferInv_of_commandBody hbuffer h, ⟨hframe.reserved.trans hreserved, hframe.err ▸ herr⟩,
    scheduleInv_of_commandBody hschedule h⟩

theorem inv_setErr {s : State} {e : BitVec 4} (hinv : Inv s) (he : e.toNat ≤ 8) : Inv (s.setErr e) := by
  obtain ⟨hbuffer, ⟨hreserved, -⟩, hschedule⟩ := hinv
  refine ⟨hbuffer, ⟨(statusReserved_statusWithErr _ _).trans hreserved, by rwa [err_setErr]⟩, ?_⟩
  rw [ScheduleInv, schedValid_setErr]
  exact hschedule

theorem inv_of_exec {i : Instr} {s t : State} (hinv : Inv s) (h : exec i s = .next t) : Inv t := by
  rw [exec_eq_deliver] at h
  obtain ⟨u, hbody, rfl⟩ | ⟨e, -, rfl⟩ := deliver_cases h
  · exact inv_setErr (inv_of_commandBody hinv hbody) (Nat.zero_le 8)
  · exact inv_setErr hinv (errCode_le e)

theorem inv_of_hostCommand {w : BitVec 16} {s t : State} (hinv : Inv s) (h : hostCommand w s = .next t) : Inv t := by
  have hcmd : Inv { s with cmd := w } := hinv
  obtain ⟨i, hi⟩ | hi := hostCommand_cases w s
  · exact inv_of_exec hcmd (hi.symm.trans h)
  · obtain rfl := Host.Outcome.next.inj (hi.symm.trans h)
    exact inv_setErr hcmd (errCode_le _)

/-! A step keeps the invariant. -/

/-- A write to a register the invariant speaks of is a write of DBUF or DLEN, or runs a command. -/
theorem inv_of_hostWrite {r : Reg} {i v : Nat} {s t : State} (hinv : Inv s) (he : cellExists s.params r i = true)
    (h : hostWrite r i v s = .next t) : Inv t := by
  cases r with
  | cmd => exact inv_of_hostCommand hinv h
  | status | rk | nr | k1 | k2 | tag | key | keylen | iv | ivlen | blk | padbs => cases h; exact hinv
  | dbuf =>
    cases h
    obtain ⟨⟨hlegal, hwf, hbelow, hlen⟩, hrest⟩ := hinv
    refine ⟨⟨hlegal, write_wf hwf _ _, fun c hc => ?_, hlen⟩, hrest⟩
    obtain hc | ⟨rfl, -⟩ := mem_write hc
    · exact hbelow c hc
    · exact he
  | dlen =>
    cases h
    obtain ⟨⟨hlegal, hwf, hbelow, -⟩, hrest⟩ := hinv
    exact ⟨⟨hlegal, hwf, hbelow, lengthFits_truncLength _ _⟩, hrest⟩

theorem withCell_eq_next {r : Reg} {i : Nat} {k : State → Result State} {s t : State} :
    withCell r i k s = .next t ↔ cellExists s.params r i = true ∧ k s = .next t := by
  unfold withCell
  split <;> simp_all

/-- A bus access that is answered is the access to an existing cell. -/
theorem withBusCell_eq_next {offset size : Nat} {k : Reg → Nat → State → Result State} {s t : State}
    (h : withBusCell offset size k s = .next t) : ∃ r i, cellExists s.params r i = true ∧ k r i s = .next t := by
  cases hcell : busCell s.params offset size with
  | none => rw [withBusCell_of_none hcell] at h; cases h
  | some c =>
    rw [withBusCell_of_some hcell] at h
    exact ⟨c.1, c.2, (busCell_eq_some.mp hcell).1, h⟩

/-- What an operation of the host that is answered does: it resets, or reads or writes an existing cell. -/
theorem hostStep_cases {op : HostOp} {s t : State} (h : hostStep op s = .next t) :
    t = hostReset s ∨ (∃ r i, hostRead r i s = .next t) ∨
      ∃ r i v, cellExists s.params r i = true ∧ hostWrite r i v s = .next t := by
  cases op with
  | read r i => exact .inr (.inl ⟨r, i, (withCell_eq_next.mp h).2⟩)
  | write r i v => exact .inr (.inr ⟨r, i, v, withCell_eq_next.mp h⟩)
  | reset | resetDuring _ => exact .inl (Host.Outcome.next.inj h).symm
  | busRead offset size =>
    obtain ⟨r, i, -, hread⟩ := withBusCell_eq_next h
    exact .inr (.inl ⟨r, i, hread⟩)
  | busWrite offset size v =>
    obtain ⟨r, i, hcell⟩ := withBusCell_eq_next h
    exact .inr (.inr ⟨r, i, v, hcell⟩)

theorem inv_of_hostStep {op : HostOp} {s t : State} (hinv : Inv s) (h : hostStep op s = .next t) : Inv t := by
  obtain rfl | ⟨r, i, hread⟩ | ⟨r, i, v, he, hwrite⟩ := hostStep_cases h
  · exact inv_resetWith hinv.1.1
  · cases hread; exact hinv
  · exact inv_of_hostWrite hinv he hwrite

/-- Settles O14: taking an operation off the list touches no register, and the operation keeps the invariant. -/
theorem stepKeepsInv : Obligations.StepKeepsInv := by
  unfold Obligations.StepKeepsInv
  intro s t hinv h
  cases hp : s.pending with
  | nil =>
    rw [step_of_idle hp] at h
    exact Host.Outcome.next.inj h ▸ hinv
  | cons op rest =>
    have htaken : Inv (takeOp s rest) := hinv
    rw [step, hp] at h
    exact inv_of_hostStep htaken h

/-! The safe host. -/

theorem hostCommand_keeps_own {w : BitVec 16} {s t : State} (h : hostCommand w s = .next t) :
    t.params = s.params ∧ t.pending = s.pending := by
  obtain ⟨i, hi⟩ | hi := hostCommand_cases w s
  · obtain ⟨u, e, hframe, rfl⟩ := exec_frame (hi.symm.trans h)
    obtain ⟨hparams, hpending, -⟩ := hframe.own
    exact ⟨hparams, hpending⟩
  · obtain rfl := Host.Outcome.next.inj (hi.symm.trans h)
    exact ⟨rfl, rfl⟩

theorem hostWrite_keeps_own (r : Reg) (i v : Nat) (s : State) :
    ∃ t, hostWrite r i v s = .next t ∧ t.params = s.params ∧ t.pending = s.pending := by
  by_cases hcmd : r = .cmd
  · subst hcmd
    obtain ⟨t, ht⟩ := hostCommand_completes (BitVec.ofNat 16 v) s
    exact ⟨t, ht, hostCommand_keeps_own ht⟩
  · exact hostWrite_completes hcmd i v s

/-- A safe operation is answered, and changes neither the parameters nor what the host has still to do. -/
theorem hostStep_of_safe {op : HostOp} {s : State} (h : safeOp s.params op = true) :
    ∃ t, hostStep op s = .next t ∧ t.params = s.params ∧ t.pending = s.pending := by
  cases op with
  | read r i => exact ⟨_, withCell_of_exists h _, rfl, rfl⟩
  | write r i v =>
    obtain ⟨t, ht, hown⟩ := hostWrite_keeps_own r i v s
    exact ⟨t, (withCell_of_exists h _).trans ht, hown⟩
  | reset | resetDuring _ => exact ⟨_, rfl, rfl, rfl⟩
  | busRead offset size =>
    obtain ⟨c, hcell⟩ := Option.isSome_iff_exists.mp h
    exact ⟨_, withBusCell_of_some hcell _, rfl, rfl⟩
  | busWrite offset size v =>
    obtain ⟨c, hcell⟩ := Option.isSome_iff_exists.mp h
    obtain ⟨t, ht, hown⟩ := hostWrite_keeps_own c.1 c.2 v s
    exact ⟨t, (withBusCell_of_some hcell _).trans ht, hown⟩

/-- Settles O15: the operation taken is safe (`hostStep_of_safe`), and the others stay as they are. -/
theorem safeHostNeverStops : Obligations.SafeHostNeverStops := by
  unfold Obligations.SafeHostNeverStops
  intro s hsafe
  cases hp : s.pending with
  | nil => exact ⟨s, step_of_idle hp, hsafe⟩
  | cons op rest =>
    unfold SafeHost at hsafe
    rw [hp, List.forall_mem_cons] at hsafe
    obtain ⟨hop, hrest⟩ := hsafe
    obtain ⟨t, ht, hparams, hpending⟩ := hostStep_of_safe (s := takeOp s rest) hop
    refine ⟨t, by rw [step, hp]; exact ht, ?_⟩
    rw [SafeHost, hpending, hparams]
    exact hrest

end Sys2Proof.Machine
end

section
/-! The result of a command as a function of its operands (spec/10_state.md R46): two runs of a body that draw the same
operands make the same checks, and on success write the same results. -/

namespace Sys2Proof.Machine

open Sys2Proof.Claims

/-! Two runs of a body. -/

/-- Both runs fail with one error, or both succeed with states that R relates; `sameOutcome_commandBody` ties it to
every command. -/
def SameOutcome (R : State → State → Prop) (x y : Except ErrKind State) : Prop :=
  match x, y with
  | .ok u, .ok v => R u v
  | .error e, .error f => e = f
  | _, _ => False

theorem sameOutcome_ok {R : State → State → Prop} {u v : State} (h : R u v) : SameOutcome R (.ok u) (.ok v) := h

/-- Two runs that draw the same operand go on alike. -/
theorem SameOutcome.bind {R : State → State → Prop} {α : Type} {x y : Except ErrKind α} {f g : α → Except ErrKind State}
    (hxy : x = y) (hfg : ∀ a, x = .ok a → SameOutcome R (f a) (g a)) : SameOutcome R (x >>= f) (y >>= g) := by
  subst hxy
  cases x with
  | ok a => exact hfg a rfl
  | error e => exact (rfl : e = e)

/-- The commands that end in the same way: ERR is the error's code or 0, and the results are those of the bodies. -/
theorem SameOutcome.deliver {R : State → State → Prop} {s s' t t' : State} {x y : Except ErrKind State}
    (h : SameOutcome R x y) (ht : deliver s x = .next t) (ht' : deliver s' y = .next t') :
    t.err = t'.err ∧ (t.err = 0 → ∃ u v, R u v ∧ t = u.setErr 0 ∧ t' = v.setErr 0) := by
  match x, y, h with
  | .ok u, .ok v, h =>
    obtain rfl := Host.Outcome.next.inj ht
    obtain rfl := Host.Outcome.next.inj ht'
    exact ⟨by rw [err_setErr, err_setErr], fun _ => ⟨u, v, h, rfl, rfl⟩⟩
  | .error e, .error _, rfl =>
    obtain rfl := Host.Outcome.next.inj ht
    obtain rfl := Host.Outcome.next.inj ht'
    refine ⟨by rw [err_setErr, err_setErr], fun herr => absurd ?_ (errCode_ne_zero e)⟩
    rwa [err_setErr] at herr

/-! The operands of two states that agree on the registers read. -/

section

variable {s s' : State}

theorem keyOperand_congr (h : SameKey s s') : keyOperand s = keyOperand s' := by
  obtain ⟨hlen, hkey⟩ := h
  rw [keyOperand, keyOperand, keyLengthOk, keyLengthOk, hlen, hkey]

theorem ivOperand_congr (hiv : s.iv = s'.iv) (hlen : s.ivlen = s'.ivlen) : ivOperand s = ivOperand s' := by
  rw [ivOperand, ivOperand, hiv, hlen]

theorem scheduleOperand_congr (hrk : s.rk = s'.rk) (hnr : s.nr = s'.nr) (hvalid : s.schedValid = s'.schedValid) :
    scheduleOperand s = scheduleOperand s' := by
  rw [scheduleOperand, scheduleOperand, scheduleBytes, scheduleBytes, hrk, hnr, hvalid]

theorem requireFits_congr (h : s.params = s'.params) (n : Nat) : requireFits s n = requireFits s' n := by
  rw [requireFits, requireFits, h]

theorem message_congr (h : SameMessage s s') : message s = message s' := by
  obtain ⟨hdlen, -, hread⟩ := h
  rw [message, message, ← hdlen]
  exact readBytes_congr fun k hk => by rw [Nat.zero_add]; exact hread k hk

theorem decryptChecks_congr (h : SameMessage s s') : decryptChecks s = decryptChecks s' := by
  obtain ⟨hdlen, hparams, -⟩ := h
  rw [decryptChecks, decryptChecks, requireAligned, requireAligned, requireFits_congr hparams, hdlen]

theorem encryptChecks_congr (h : SameMessage s s') (pad : PadScheme) : encryptChecks pad s = encryptChecks pad s' := by
  obtain ⟨hdlen, hparams, -⟩ := h
  rw [encryptChecks, encryptChecks, requireAligned, requireAligned, requireFits_congr hparams,
    requireFits_congr hparams, hdlen]

end

/-! What the commands on DBUF leave. -/

/-- A byte MemWrite wrote does not depend on what DBUF held. -/
theorem read_writeBytes_congr {m m' : Memory} (hm : m.wf) (hm' : m'.wf) (a : Nat) (l : List Byte) {x : Nat}
    (hle : a ≤ x) (hlt : x < a + l.length) : (m.writeBytes a l).read x = (m'.writeBytes a l).read x := by
  obtain ⟨k, rfl⟩ := Nat.exists_eq_add_of_le hle
  have hk : k < l.length := Nat.lt_of_add_lt_add_left hlt
  rw [read_writeBytes_inside m hm a l hk, read_writeBytes_inside m' hm' a l hk]

/-- u and v agree on DLEN and on the n bytes of DBUF from address a on. -/
def SameStored (a n : Nat) (u v : State) : Prop :=
  u.dlen = v.dlen ∧ ∀ x, a ≤ x → x < a + n → u.dbuf.read x = v.dbuf.read x

section

variable {s s' : State} (hm : s.dbuf.wf) (hm' : s'.dbuf.wf)
include hm hm'

theorem sameOutcome_padBody {fill : Nat → List Byte} (hfill : ∀ n, 0 < n → (fill n).length = n)
    (hpadbs : s.padbs = s'.padbs) (hdlen : s.dlen = s'.dlen) (hparams : s.params = s'.params) :
    SameOutcome (SameStored s.dlen (padCount s.dlen s.padbs.toNat)) (padBody fill s) (padBody fill s') := by
  refine .bind (by rw [blockSizeOperand, blockSizeOperand, hpadbs]) fun bs hbs => ?_
  obtain ⟨hb, rfl⟩ := blockSizeOperand_eq_ok.mp hbs
  rw [← hdlen]
  refine .bind (requireFits_congr hparams _) fun _ _ => .bind (requireFits_congr hparams _) fun _ _ =>
    sameOutcome_ok ⟨rfl, fun x hle hlt => ?_⟩
  exact read_writeBytes_congr hm hm' _ _ hle (by rwa [hfill _ (padCount_pos hb)])

/-- The end of an encryption, with c the ciphertext blocks. -/
theorem sameOutcome_encryption {pad : PadScheme} (hmsg : SameMessage s s') {c : List Block}
    (hc : c.length = (blocksOf (applyPad (message s) pad)).length) :
    SameOutcome (SameStored 0 (paddedLength s.dlen pad))
      (encryptChecks pad s >>= fun _ => .ok (commitEncrypted s (joinBlocks c)))
      (encryptChecks pad s' >>= fun _ => .ok (commitEncrypted s' (joinBlocks c))) := by
  refine .bind (encryptChecks_congr hmsg pad) fun _ hchecks =>
    sameOutcome_ok ⟨rfl, fun x hle hlt => read_writeBytes_congr hm hm' _ _ hle ?_⟩
  obtain ⟨halign, -, -⟩ := encryptChecks_eq_ok.mp hchecks
  rw [blocksOf_length, length_applyPad] at hc
  rwa [length_joinBlocks_aligned (paddedLength_aligned halign) hc]

/-- The end of a decryption, with c the plaintext blocks before unpadding. -/
theorem sameOutcome_decryption {pad : PadScheme} (hmsg : SameMessage s s') {c : List Block}
    (hc : c.length = (blocksOf (message s)).length) :
    SameOutcome (SameStored 0 s.dlen)
      (decryptChecks s >>= fun _ => commitDecrypted pad s (joinBlocks c))
      (decryptChecks s' >>= fun _ => commitDecrypted pad s' (joinBlocks c)) := by
  refine .bind (decryptChecks_congr hmsg) fun _ hchecks => .bind rfl fun _ _ =>
    sameOutcome_ok ⟨rfl, fun x hle hlt => read_writeBytes_congr hm hm' _ _ hle ?_⟩
  obtain ⟨halign, -⟩ := decryptChecks_eq_ok.mp hchecks
  rw [blocksOf_length, message_length] at hc
  rwa [length_joinBlocks_aligned halign hc]

end

theorem sameOutcome_unpadBody {s s' : State} (f : List Byte → Except ErrKind (List Byte)) (h : SameMessage s s') :
    SameOutcome (fun u v => u.dlen = v.dlen) (unpadBody f s) (unpadBody f s') := by
  have hmessage := message_congr h
  obtain ⟨hdlen, hparams, -⟩ := h
  rw [unpadBody, unpadBody, ← hmessage, ← hdlen]
  exact .bind (requireFits_congr hparams _) fun _ _ => .bind rfl fun _ _ => sameOutcome_ok rfl

/-! Every command. -/

/-- The operands a body draws are those `SameOperands` lists for the command. -/
theorem sameOutcome_commandBody {i : Instr} {s s' : State} (hm : s.dbuf.wf) (hm' : s'.dbuf.wf)
    (h : SameOperands i s s') : SameOutcome (SameResults i s) (commandBody i s) (commandBody i s') := by
  cases i with
  | nop => exact sameOutcome_ok trivial
  | subbytes | invsubbytes | shiftrows | invshiftrows | mixcolumns | invmixcolumns =>
    have hblk : s.blk = s'.blk := h
    exact sameOutcome_ok (by rw [SameResults, hblk])
  | keyexp =>
    exact .bind (keyOperand_congr h) fun _ _ =>
      sameOutcome_ok ⟨rfl, rfl, (schedValid_setSchedValid _).trans (schedValid_setSchedValid _).symm⟩
  | cmackeys => exact .bind (keyOperand_congr h) fun _ _ => sameOutcome_ok ⟨rfl, rfl⟩
  | encblk | decblk =>
    obtain ⟨hblk, hrk, hnr, hvalid⟩ := h
    exact .bind (scheduleOperand_congr hrk hnr hvalid) fun _ _ => sameOutcome_ok (by rw [SameResults, hblk])
  | addroundkey r =>
    obtain ⟨hblk, hrk, hnr, hvalid⟩ := h
    exact .bind (scheduleOperand_congr hrk hnr hvalid) fun _ _ => .bind rfl fun _ _ =>
      sameOutcome_ok (by rw [SameResults, hblk])
  | pkcs7pad =>
    obtain ⟨hpadbs, hdlen, hparams⟩ := h
    exact sameOutcome_padBody hm hm' (fun n _ => pkcs7Fill_length n) hpadbs hdlen hparams
  | m2pad =>
    obtain ⟨hpadbs, hdlen, hparams⟩ := h
    exact sameOutcome_padBody hm hm' (fun _ hn => m2Fill_length hn) hpadbs hdlen hparams
  | pkcs7unpad | m2unpad => exact sameOutcome_unpadBody _ h
  | cmac =>
    obtain ⟨hkey, hmsg⟩ := h
    have hmessage := message_congr hmsg
    obtain ⟨hdlen, hparams, -⟩ := hmsg
    rw [commandBody, commandBody, cmacBody, cmacBody, ← hmessage, ← hdlen]
    exact .bind (keyOperand_congr hkey) fun _ _ => .bind (requireFits_congr hparams _) fun _ _ => sameOutcome_ok rfl
  | ecbenc pad =>
    obtain ⟨hkey, hmsg⟩ := h
    rw [commandBody, commandBody, ecbencBody, ecbencBody, ← message_congr hmsg]
    exact .bind (keyOperand_congr hkey) fun _ _ =>
      sameOutcome_encryption hm hm' hmsg (ecbEncrypt_length _ _ _)
  | ecbdec pad =>
    obtain ⟨hkey, hmsg⟩ := h
    rw [commandBody, commandBody, ecbdecBody, ecbdecBody, ← message_congr hmsg]
    exact .bind (keyOperand_congr hkey) fun _ _ =>
      sameOutcome_decryption hm hm' hmsg (ecbDecrypt_length _ _ _)
  | cbcenc pad =>
    obtain ⟨hkey, hmsg, hiv, hivlen⟩ := h
    rw [commandBody, commandBody, cbcencBody, cbcencBody, ← message_congr hmsg]
    exact .bind (keyOperand_congr hkey) fun _ _ => .bind (ivOperand_congr hiv hivlen) fun _ _ =>
      sameOutcome_encryption hm hm' hmsg (cbcEncrypt_length _ _ _ _)
  | cbcdec pad =>
    obtain ⟨hkey, hmsg, hiv, hivlen⟩ := h
    rw [commandBody, commandBody, cbcdecBody, cbcdecBody, ← message_congr hmsg]
    exact .bind (keyOperand_congr hkey) fun _ _ => .bind (ivOperand_congr hiv hivlen) fun _ _ =>
      sameOutcome_decryption hm hm' hmsg (cbcDecrypt_length _ _ _ _)

/-- ERR is no result. -/
theorem sameResults_setErr {i : Instr} {s u v : State} (h : SameResults i s u v) (e : BitVec 4) :
    SameResults i s (u.setErr e) (v.setErr e) := by
  cases i with
  | keyexp =>
    obtain ⟨hrk, hnr, hvalid⟩ := h
    exact ⟨hrk, hnr, by rw [schedValid_setErr, schedValid_setErr, hvalid]⟩
  | nop | encblk | decblk | subbytes | invsubbytes | shiftrows | invshiftrows | mixcolumns | invmixcolumns
  | addroundkey _ | pkcs7pad | pkcs7unpad | m2pad | m2unpad | ecbenc _ | ecbdec _ | cbcenc _ | cbcdec _ | cmackeys
  | cmac => exact h

/-- Settles O20: the two bodies have the same outcome, so the commands deliver the same. -/
theorem resultsDependOnlyOnOperands : Obligations.ResultsDependOnlyOnOperands := by
  unfold Obligations.ResultsDependOnlyOnOperands
  intro i s s' t t' hm hm' hsame ht ht'
  rw [exec_eq_deliver] at ht ht'
  obtain ⟨herr, hok⟩ := (sameOutcome_commandBody hm hm' hsame).deliver ht ht'
  refine ⟨herr, fun hzero => ?_⟩
  obtain ⟨u, v, hresults, rfl, rfl⟩ := hok hzero
  exact sameResults_setErr hresults 0

end Sys2Proof.Machine
end

section
/-! The inverse cipher (spec/40_gf_tables.md R124, R125; spec/42_block_transform.md R156 to R178): the tables, the round
steps and their inverses, the block functions, and the block commands as step commands. -/

namespace Sys2Proof.Machine

open Sys2Proof.Claims

/-! The tables (R124, R125). -/

/-- Settles O24, by `invSbox_sbox` and `sbox_invSbox`. -/
theorem invSboxInvertsSbox : Obligations.InvSboxInvertsSbox := by
  unfold Obligations.InvSboxInvertsSbox
  exact fun a => ⟨invSbox_sbox a, sbox_invSbox a⟩

/-- Settles O25: one lemma per table. -/
theorem mulTablesAreGmul : Obligations.MulTablesAreGmul := by
  unfold Obligations.MulTablesAreGmul
  exact fun a => ⟨mul2_eq_gmul a, mul3_eq_gmul a, mul9_eq_gmul a, mul11_eq_gmul a, mul13_eq_gmul a, mul14_eq_gmul a⟩

/-! SubBytes (R157) and ShiftRows (R159). -/

theorem invSubBytes_subBytes (b : Block) : invSubBytes (subBytes b) = b :=
  bytes_ext fun i hi => by rw [byteAt_invSubBytes _ hi, byteAt_subBytes _ hi, invSbox_sbox]

theorem subBytes_invSubBytes (b : Block) : subBytes (invSubBytes b) = b :=
  bytes_ext fun i hi => by rw [byteAt_subBytes _ hi, byteAt_invSubBytes _ hi, sbox_invSbox]

/-- Two blocks are equal when they agree on every row and column. -/
theorem block_ext {b b' : Block} (h : ∀ r c, r < 4 → c < 4 → byteAt b (r + 4 * c) = byteAt b' (r + 4 * c)) : b = b' :=
  bytes_ext fun i hi => by
    rw [← Nat.mod_add_div i 4]
    exact h _ _ (Nat.mod_lt i (by decide)) (by omega)

/-- Every column is a column moved to the left by r, so a block is also known by its moved rows. -/
theorem block_ext_shifted {b b' : Block}
    (h : ∀ r c, r < 4 → c < 4 → byteAt b (r + 4 * ((c + r) % 4)) = byteAt b' (r + 4 * ((c + r) % 4))) : b = b' :=
  block_ext fun r c hr hc => by
    have hcol : ((c + 4 - r) % 4 + r) % 4 = c := by omega
    rw [← hcol]
    exact h r _ hr (Nat.mod_lt _ (by decide))

theorem invShiftRows_shiftRows (b : Block) : invShiftRows (shiftRows b) = b :=
  block_ext_shifted fun r c hr hc => by rw [byteAt_invShiftRows _ hr hc, byteAt_shiftRows _ hr hc]

theorem shiftRows_invShiftRows (b : Block) : shiftRows (invShiftRows b) = b :=
  block_ext fun r c hr hc => by rw [byteAt_shiftRows _ hr hc, byteAt_invShiftRows _ hr hc]

/-! MixColumns (R161): the two circulant matrices multiply to the identity. -/

/-- The circulant matrix with first row (p, q, u, v) over the field, applied to a column. -/
def circulantBy (p q u v : Byte) (t : Word) : Word :=
  circulant (gmul · p) (gmul · q) (gmul · u) (gmul · v) t

theorem mixColumn_eq_circulantBy : mixColumn = circulantBy 2 3 1 1 := by
  funext t
  simp only [circulantBy, circulant, mixColumn, mul2_eq_gmul, mul3_eq_gmul, gmul_one]

theorem invMixColumn_eq_circulantBy : invMixColumn = circulantBy 14 11 13 9 := by
  funext t
  simp only [circulantBy, circulant, invMixColumn, mul14_eq_gmul, mul11_eq_gmul, mul13_eq_gmul, mul9_eq_gmul]

/-- The product of two circulant matrices is circulant. -/
theorem circulantBy_circulantBy (p q u v p' q' u' v' : Byte) (t : Word) :
    circulantBy p q u v (circulantBy p' q' u' v' t) =
      circulantBy (gmul p' p ^^^ gmul v' q ^^^ gmul u' u ^^^ gmul q' v)
        (gmul q' p ^^^ gmul p' q ^^^ gmul v' u ^^^ gmul u' v)
        (gmul u' p ^^^ gmul q' q ^^^ gmul p' u ^^^ gmul v' v)
        (gmul v' p ^^^ gmul u' q ^^^ gmul q' u ^^^ gmul p' v) t := by
  simp only [circulantBy, circulant, xor_gmul, gmul_xor, gmul_assoc, Word.mk.injEq]
  refine ⟨?_, ?_, ?_, ?_⟩ <;> ac_rfl

theorem circulantBy_one (t : Word) : circulantBy 1 0 0 0 t = t := by
  simp only [circulantBy, circulant, gmul_one, gmul_zero]
  simp

theorem invMixColumn_mixColumn (t : Word) : invMixColumn (mixColumn t) = t := by
  rw [mixColumn_eq_circulantBy, invMixColumn_eq_circulantBy, circulantBy_circulantBy]
  exact circulantBy_one t

theorem mixColumn_invMixColumn (t : Word) : mixColumn (invMixColumn t) = t := by
  rw [mixColumn_eq_circulantBy, invMixColumn_eq_circulantBy, circulantBy_circulantBy]
  exact circulantBy_one t

theorem word_ext {t u : Word} (h : ∀ r, r < 4 → t.toBytes.getD r 0 = u.toBytes.getD r 0) : t = u := by
  obtain ⟨t0, t1, t2, t3⟩ := t
  obtain ⟨u0, u1, u2, u3⟩ := u
  exact (Word.mk.injEq ..).mpr ⟨h 0 (by decide), h 1 (by decide), h 2 (by decide), h 3 (by decide)⟩

theorem wordOf_mapColumns (f : Word → Word) (b : Block) {c : Nat} (hc : c < 4) :
    wordOf (mapColumns f b).toList c = f (wordOf b.toList c) :=
  word_ext fun r hr => by
    rw [← getD_eq_getD_column _ hr]
    exact byteAt_mapColumns f b hr hc

/-- Maps of columns that undo each other on a column undo each other on a block. -/
theorem mapColumns_mapColumns {f g : Word → Word} (h : ∀ t, f (g t) = t) (b : Block) :
    mapColumns f (mapColumns g b) = b :=
  block_ext fun r c hr hc => by
    rw [byteAt_mapColumns f _ hr hc, wordOf_mapColumns g b hc, h, ← getD_eq_getD_column _ hr]
    rfl

theorem invMixColumns_mixColumns (b : Block) : invMixColumns (mixColumns b) = b :=
  mapColumns_mapColumns invMixColumn_mixColumn b

theorem mixColumns_invMixColumns (b : Block) : mixColumns (invMixColumns b) = b :=
  mapColumns_mapColumns mixColumn_invMixColumn b

theorem addRoundKey_addRoundKey (b : Block) (w : List Byte) (r : Nat) : addRoundKey (addRoundKey b w r) w r = b :=
  xorBytes_cancel b (roundKey w r)

/-- Settles O35: one lemma per step and direction. -/
theorem roundStepsInvert : Obligations.RoundStepsInvert := by
  unfold Obligations.RoundStepsInvert
  exact fun b => ⟨⟨invSubBytes_subBytes b, subBytes_invSubBytes b⟩,
    ⟨invShiftRows_shiftRows b, shiftRows_invShiftRows b⟩,
    ⟨invMixColumns_mixColumns b, mixColumns_invMixColumns b⟩, addRoundKey_addRoundKey b⟩

/-! The block functions (R171, R173, R175). -/

theorem decRound_encRound (w : List Byte) (b : Block) (r : Nat) : decRound w (encRound w b r) r = b := by
  rw [decRound, encRound, addRoundKey_addRoundKey, invMixColumns_mixColumns, invShiftRows_shiftRows,
    invSubBytes_subBytes]

theorem encRound_decRound (w : List Byte) (b : Block) (r : Nat) : encRound w (decRound w b r) r = b := by
  rw [encRound, decRound, subBytes_invSubBytes, shiftRows_invShiftRows, mixColumns_invMixColumns,
    addRoundKey_addRoundKey]

/-- Rounds undone one by one, the last first. -/
theorem foldl_reverse_foldl {α β : Type} {f g : β → α → β} (h : ∀ b a, g (f b a) a = b) (l : List α) (b : β) :
    l.reverse.foldl g (l.foldl f b) = b := by
  induction l generalizing b with
  | nil => rfl
  | cons a l ih => rw [List.reverse_cons, List.foldl_append, List.foldl_cons, List.foldl_nil, List.foldl_cons, ih, h]

theorem decryptBlock_encryptBlock (b : Block) (w : List Byte) (nr : Nat) :
    decryptBlock (encryptBlock b w nr) w nr = b := by
  simp only [decryptBlock, encryptBlock, addRoundKey_addRoundKey, invShiftRows_shiftRows, invSubBytes_subBytes,
    foldl_reverse_foldl (decRound_encRound w)]

theorem encryptBlock_decryptBlock (b : Block) (w : List Byte) (nr : Nat) :
    encryptBlock (decryptBlock b w nr) w nr = b := by
  have rounds_undone := foldl_reverse_foldl (encRound_decRound w) (List.range' 1 (nr - 1)).reverse
  rw [List.reverse_reverse] at rounds_undone
  simp only [decryptBlock, encryptBlock, addRoundKey_addRoundKey, rounds_undone, subBytes_invSubBytes,
    shiftRows_invShiftRows]

/-! A run of commands on BLK under one schedule. -/

/-- s with b in BLK and ERR 0: where a command on BLK ends (`exec_encblk`, `exec_decblk`, `Computes.step`). -/
def withBlk (s : State) (b : Block) : State := State.setErr { s with blk := b } 0

theorem withBlk_withBlk (s : State) (b c : Block) : withBlk (withBlk s b) c = withBlk s c :=
  setErr_setErr { s with blk := c } 0 0

@[simp] theorem withBlk_blk (s : State) (b : Block) : (withBlk s b).blk = b := rfl

@[simp] theorem withBlk_nr (s : State) (b : Block) : (withBlk s b).nr = s.nr := rfl

@[simp] theorem schedValid_withBlk (s : State) (b : Block) : (withBlk s b).schedValid = s.schedValid :=
  schedValid_setErr _ _

/-- The round keys the block commands use (R172, R174): RK as far as NR says. -/
def roundKeys (s : State) : List Byte := (scheduleBytes s).take (16 * (s.nr.toNat + 1))

@[simp] theorem roundKeys_withBlk (s : State) (b : Block) : roundKeys (withBlk s b) = roundKeys s := rfl

section

variable {s : State} (h : s.schedValid = true)
include h

theorem exec_encblk : exec .encblk s = .next (withBlk s (encryptBlock s.blk (roundKeys s) s.nr.toNat)) :=
  exec_of_commandBody_ok (i := .encblk) (blockBody_eq_ok.mpr ⟨h, rfl⟩)

theorem exec_decblk : exec .decblk s = .next (withBlk s (decryptBlock s.blk (roundKeys s) s.nr.toNat)) :=
  exec_of_commandBody_ok (i := .decblk) (blockBody_eq_ok.mpr ⟨h, rfl⟩)

end

/-- Settles O36: the functions undo each other, and both commands use the schedule that neither changes. -/
theorem decryptionInvertsEncryption : Obligations.DecryptionInvertsEncryption := by
  unfold Obligations.DecryptionInvertsEncryption
  refine ⟨fun b w nr => ⟨decryptBlock_encryptBlock b w nr, encryptBlock_decryptBlock b w nr⟩, fun s h => ⟨?_, ?_⟩⟩
  · refine ⟨_, _, exec_encblk h, exec_decblk (by rwa [schedValid_withBlk]), ?_⟩
    exact decryptBlock_encryptBlock _ _ _
  · refine ⟨_, _, exec_decblk h, exec_encblk (by rwa [schedValid_withBlk]), ?_⟩
    exact encryptBlock_decryptBlock _ _ _

/-! The step commands (R171, R173, R178). -/

/-- The key bytes past NR are in no round key up to NR. -/
theorem roundKey_roundKeys {s : State} {r : Nat} (hr : r ≤ s.nr.toNat) :
    roundKey (roundKeys s) r = roundKey (scheduleBytes s) r :=
  bytes_ext fun i hi => by
    rw [byteAt_roundKey _ _ hi, byteAt_roundKey _ _ hi, roundKeys, List.getD_eq_getElem?_getD,
      List.getElem?_take_of_lt (by omega), List.getD_eq_getElem?_getD]

theorem exec_addroundkey {s : State} {r : Nat} (h : s.schedValid = true) (hr : r ≤ s.nr.toNat) :
    exec (.addroundkey r) s = .next (withBlk s (addRoundKey s.blk (roundKeys s) r)) := by
  rw [addRoundKey, roundKey_roundKeys hr]
  exact exec_of_commandBody_ok (i := .addroundkey r) (addroundkeyBody_eq_ok.mpr ⟨h, hr, rfl⟩)

theorem runCommands_cons {i : Instr} {is : List Instr} {s t : State} (h : exec i s = .next t) :
    runCommands (i :: is) s = runCommands is t := by
  rw [runCommands, h]

theorem runCommands_append {is js : List Instr} {s t : State} (h : runCommands is s = .next t) :
    runCommands (is ++ js) s = runCommands js t := by
  induction is generalizing s with
  | nil => rw [Host.Outcome.next.inj h]; rfl
  | cons i is ih =>
    obtain ⟨u, hu⟩ := exec_completes i s
    rw [runCommands_cons hu] at h
    rw [List.cons_append, runCommands_cons hu, ih h]

/-- `is` are commands that on BLK compute f, whatever BLK holds. -/
def Computes (s : State) (is : List Instr) (f : Block → Block) : Prop :=
  ∀ b, runCommands is (withBlk s b) = .next (withBlk s (f b))

theorem computes_nil (s : State) : Computes s [] id := fun _ => rfl

theorem Computes.append {s : State} {is js : List Instr} {f g : Block → Block} (hf : Computes s is f)
    (hg : Computes s js g) : Computes s (is ++ js) (g ∘ f) := fun b => by
  rw [runCommands_append (hf b), hg, Function.comp_apply]

/-- A list of steps computes their composition, which is a round of the model by unfolding. -/
theorem Computes.cons {s : State} {i : Instr} {is : List Instr} {f g : Block → Block}
    (hf : ∀ b, exec i (withBlk s b) = .next (withBlk s (f b))) (hg : Computes s is g) :
    Computes s (i :: is) (g ∘ f) := fun b => by
  rw [runCommands_cons (hf b), hg, Function.comp_apply]

/-- Rounds one after another are a fold over the round numbers. -/
theorem computes_flatMap {s : State} {round : Nat → List Instr} {f : Block → Nat → Block} {rs : List Nat}
    (h : ∀ r, r ∈ rs → Computes s (round r) (f · r)) : Computes s (rs.flatMap round) (rs.foldl f ·) := by
  induction rs with
  | nil => exact computes_nil s
  | cons r rs ih =>
    obtain ⟨hr, hrs⟩ := List.forall_mem_cons.mp h
    exact hr.append (ih hrs)

/-- The middle rounds are 1 to NR - 1. -/
theorem round_le {r nr : Nat} (h : r ∈ List.range' 1 (nr - 1)) : r ≤ nr := by
  obtain ⟨-, hlt⟩ := List.mem_range'_1.mp h
  omega

/-- A step command without a key before commands that compute g. -/
theorem Computes.step {s : State} {i : Instr} {is : List Instr} {g : Block → Block} (hg : Computes s is g)
    (f : Block → Block) (hi : ∀ s, commandBody i s = .ok { s with blk := f s.blk }) : Computes s (i :: is) (g ∘ f) :=
  .cons (fun b => (exec_of_commandBody_ok (hi _)).trans (congrArg Host.Outcome.next (withBlk_withBlk s b (f b)))) hg

/-- The steps after AddRoundKey that a middle round and the first round of the inverse cipher share. -/
theorem computes_invShiftSub (s : State) :
    Computes s [.invshiftrows, .invsubbytes] (fun b => invSubBytes (invShiftRows b)) :=
  have steps := (computes_nil s).step (i := .invsubbytes) invSubBytes (fun _ => rfl)
    |>.step (i := .invshiftrows) invShiftRows (fun _ => rfl)
  steps

section

variable {s : State} (h : s.schedValid = true)
include h

theorem exec_addroundkey_withBlk {r : Nat} (hr : r ≤ s.nr.toNat) (b : Block) :
    exec (.addroundkey r) (withBlk s b) = .next (withBlk s (addRoundKey b (roundKeys s) r)) :=
  (exec_addroundkey (s := withBlk s b) (by rwa [schedValid_withBlk]) hr).trans
    (congrArg Host.Outcome.next (withBlk_withBlk s b _))

theorem computes_addroundkey {r : Nat} (hr : r ≤ s.nr.toNat) :
    Computes s [.addroundkey r] (addRoundKey · (roundKeys s) r) :=
  .cons (exec_addroundkey_withBlk h hr) (computes_nil s)

theorem computes_encRound {r : Nat} (hr : r ≤ s.nr.toNat) :
    Computes s [.subbytes, .shiftrows, .mixcolumns, .addroundkey r] (encRound (roundKeys s) · r) :=
  have steps := (computes_addroundkey h hr).step (i := .mixcolumns) mixColumns (fun _ => rfl)
    |>.step (i := .shiftrows) shiftRows (fun _ => rfl)
    |>.step (i := .subbytes) subBytes (fun _ => rfl)
  steps

theorem computes_lastEncRound :
    Computes s [.subbytes, .shiftrows, .addroundkey s.nr.toNat]
      (fun b => addRoundKey (shiftRows (subBytes b)) (roundKeys s) s.nr.toNat) :=
  have steps := (computes_addroundkey h le_rfl).step (i := .shiftrows) shiftRows (fun _ => rfl)
    |>.step (i := .subbytes) subBytes (fun _ => rfl)
  steps

theorem computes_decRound {r : Nat} (hr : r ≤ s.nr.toNat) :
    Computes s [.addroundkey r, .invmixcolumns, .invshiftrows, .invsubbytes] (decRound (roundKeys s) · r) :=
  have steps := (computes_invShiftSub s).step (i := .invmixcolumns) invMixColumns (fun _ => rfl)
    |>.cons (exec_addroundkey_withBlk h hr)
  steps

theorem runCommands_cipherSteps : runCommands (cipherSteps s.nr.toNat) s = exec .encblk s := by
  have rounds := computes_flatMap fun r hr => computes_encRound h (round_le hr)
  rw [cipherSteps, runCommands_cons (exec_addroundkey h (Nat.zero_le _)), exec_encblk h]
  exact rounds.append (computes_lastEncRound h) _

theorem runCommands_inverseSteps : runCommands (inverseSteps s.nr.toNat) s = exec .decblk s := by
  have rounds := computes_flatMap fun r hr => computes_decRound h (round_le (List.mem_reverse.mp hr))
  rw [inverseSteps, List.cons_append, runCommands_cons (exec_addroundkey h le_rfl), exec_decblk h]
  exact (computes_invShiftSub s).append (rounds.append (computes_addroundkey h (Nat.zero_le _))) _

end

/-- Settles O34: the steps compute the rounds of R171 and R173 one after another. -/
theorem blockCommandsAreStepCommands : Obligations.BlockCommandsAreStepCommands := by
  unfold Obligations.BlockCommandsAreStepCommands
  exact fun s h _ => ⟨runCommands_cipherSteps h, runCommands_inverseSteps h⟩

end Sys2Proof.Machine
end

section
/-! Round trips of a message (spec/43_padding.md R196, spec/44_modes.md R225): unpadding what was padded, and decrypting
what was encrypted. -/

namespace Sys2Proof.Machine

open Sys2Proof.Claims

/-! Padding (R190, R192, R196). -/

/-- The padded length is the next multiple of the block size above the length. -/
theorem add_padCount {len bs : Nat} (hbs : 0 < bs) :
    (len + padCount len bs) % bs = 0 ∧ len < len + padCount len bs ∧ len + padCount len bs ≤ len + bs := by
  have hmod : len % bs < bs := Nat.mod_lt len hbs
  have hsum : len + padCount len bs = bs * (len / bs + 1) := by
    rw [padCount, Nat.mul_add_one]
    have := Nat.div_add_mod len bs
    omega
  refine ⟨by rw [hsum, Nat.mul_mod_right], ?_, ?_⟩ <;> unfold padCount <;> omega

/-- Settles O42: each unpadding function accepts what ends in the bytes its scheme appends (`pkcs7Unpad_eq_ok`,
`m2Unpad_eq_ok`), and `add_padCount` gives the length. -/
theorem unpaddingInvertsPadding : Obligations.UnpaddingInvertsPadding := by
  unfold Obligations.UnpaddingInvertsPadding
  intro m bs hpos hle
  have hlegal : ¬ (bs = 0 ∨ 255 < bs) := by omega
  obtain ⟨haligned, hlt, hmax⟩ := add_padCount (len := m.length) hpos
  have hn : 0 < padCount m.length bs := by omega
  refine ⟨⟨_, if_neg hlegal, ?_, ?_⟩, ⟨_, if_neg hlegal, ?_, ?_⟩⟩
  · exact pkcs7Unpad_eq_ok.mpr ⟨_, hn, by omega, rfl⟩
  · rw [List.length_append, pkcs7Fill_length]
    exact ⟨haligned, hlt, hmax⟩
  · exact m2Unpad_eq_ok.mpr ⟨_, hn, rfl⟩
  · rw [List.length_append, m2Fill_length hn]
    exact ⟨haligned, hlt, hmax⟩

/-- Unpadding gives back the message that was padded to 16 (R211). -/
theorem unpadBy_applyPad (pad : PadScheme) (m : List Byte) : unpadBy pad (applyPad m pad) = .ok m := by
  have hn := padCount_sixteen_pos m.length
  cases pad with
  | none => rfl
  | pkcs7 => exact pkcs7Unpad_eq_ok.mpr ⟨_, hn, by unfold padCount; omega, rfl⟩
  | m2 => exact m2Unpad_eq_ok.mpr ⟨_, hn, rfl⟩

/-- Padding keeps the bytes of the message. -/
theorem getD_applyPad (pad : PadScheme) {m : List Byte} {a : Nat} (ha : a < m.length) :
    (applyPad m pad).getD a 0 = m.getD a 0 := by
  cases pad with
  | none => rfl
  | pkcs7 | m2 => exact List.getD_append _ _ _ _ ha

/-! The modes on lists of blocks (R225). -/

theorem ecbDecrypt_ecbEncrypt (w : List Byte) (nr : Nat) (bs : List Block) :
    ecbDecrypt w nr (ecbEncrypt w nr bs) = bs := by
  rw [ecbDecrypt, ecbEncrypt, List.map_map]
  exact (List.map_congr_left fun b _ => decryptBlock_encryptBlock b w nr).trans (List.map_id bs)

theorem cbcDecrypt_cbcEncrypt (w : List Byte) (nr : Nat) (ch : Block) (bs : List Block) :
    cbcDecrypt w nr ch (cbcEncrypt w nr ch bs) = bs := by
  induction bs generalizing ch with
  | nil => rfl
  | cons b rest ih => rw [cbcEncrypt, cbcDecrypt, ih, decryptBlock_encryptBlock, xorBytes_cancel]

/-! The mode commands. -/

/-- A command keeps the canonical form of DBUF. -/
theorem dbuf_wf_of_exec {i : Instr} {s t : State} (hm : s.dbuf.wf) (h : exec i s = .next t) : t.dbuf.wf := by
  rw [exec_eq_deliver] at h
  obtain ⟨u, hbody, rfl⟩ | ⟨e, -, rfl⟩ := deliver_cases h
  · obtain ⟨⟨l, -, hstored⟩, -⟩ := commandBody_stores hbody
    rw [setErr_dbuf, hstored]
    exact writeBytes_wf hm _ l
  · exact hm

/-- What a command on DBUF and DLEN leaves of the operands of a mode command. -/
theorem operands_of_onlyBuffer {s t : State} (h : OnlyBufferAndOk s t) :
    t.params = s.params ∧ t.keylen = s.keylen ∧ t.ivlen = s.ivlen ∧ t.iv = s.iv ∧ sched t = sched s ∧
      rounds t = rounds s := by
  obtain ⟨heq, -⟩ := h
  rw [heq]
  exact ⟨rfl, rfl, rfl, rfl, rfl, rfl⟩

/-- What both modes share: an encryption to the ciphertext blocks c, then a decryption whose plaintext is the padded
message wherever c stands in DBUF and the other registers are as they were. -/
theorem decrypt_encrypt {enc dec : Instr} {pad : PadScheme} {s : State} {c : List Block} (hm : s.dbuf.wf)
    (halign : pad = .none → s.dlen % 16 = 0) (hfit : Fits s (paddedLength s.dlen pad))
    (hc : c.length = (blocksOf (applyPad (message s) pad)).length)
    (henc : commandBody enc s = (encryptChecks pad s >>= fun _ => .ok (commitEncrypted s (joinBlocks c))))
    (hdec : ∀ t, OnlyBufferAndOk s t → message t = joinBlocks c →
      commandBody dec t = (decryptChecks t >>= fun _ => commitDecrypted pad t (applyPad (message s) pad))) :
    ∃ t u, exec enc s = .next t ∧ exec dec t = .next u ∧ u.err = 0 ∧ u.dlen = s.dlen ∧
      ∀ a, a < s.dlen → u.dbuf.read a = s.dbuf.read a := by
  have hlen := length_applyPad s pad
  obtain ⟨t, ht, hsame, hdlen, hmsg, -⟩ :=
    exec_encrypt henc hm halign hfit (by rw [hc, blocksOf_length, hlen])
  obtain ⟨hparams, -⟩ := operands_of_onlyBuffer hsame
  have hfit' : Fits t t.dlen := by
    rw [Fits, hparams, hdlen]
    exact hfit
  obtain ⟨u, hu, ⟨-, herr, -⟩, hulen, hread, -⟩ := exec_decrypt (hdec t hsame hmsg) (dbuf_wf_of_exec hm ht)
    (hdlen ▸ paddedLength_aligned halign) hfit' (hlen.trans hdlen.symm) (unpadBy_applyPad pad _)
  refine ⟨t, u, ht, hu, herr, hulen.trans (message_length s), fun a ha => ?_⟩
  rw [hread a (by rw [hdlen]; exact ha.trans_le (le_paddedLength _ _)), getD_applyPad pad (by rwa [message_length]),
    getD_message s ha]

/-- The padded message is whole blocks (R211). -/
theorem joinBlocks_blocksOf_applyPad {pad : PadScheme} {s : State} (halign : pad = .none → s.dlen % 16 = 0) :
    joinBlocks (blocksOf (applyPad (message s) pad)) = applyPad (message s) pad :=
  joinBlocks_blocksOf _ (by rw [length_applyPad]; exact paddedLength_aligned halign)

/-- Settles O47: `decrypt_encrypt` for ECB, whose blocks `ecbDecrypt_ecbEncrypt` restores. -/
theorem ecbRoundTrip : Obligations.EcbRoundTrip := by
  unfold Obligations.EcbRoundTrip
  intro pad s hm hkey halign hfit
  refine decrypt_encrypt hm halign hfit (ecbEncrypt_length _ _ _) (ecbencBody_of_legal hkey pad) fun t hsame hmsg => ?_
  obtain ⟨-, hkeylen, -, -, hsched, hrounds⟩ := operands_of_onlyBuffer hsame
  have hkey' : LegalKeyLen t := by rwa [LegalKeyLen, hkeylen]
  rw [commandBody, ecbdecBody_of_legal hkey', hmsg, hsched, hrounds, blocksOf_joinBlocks, ecbDecrypt_ecbEncrypt,
    joinBlocks_blocksOf_applyPad halign]

/-- Settles O48: `decrypt_encrypt` for CBC, whose chain `cbcDecrypt_cbcEncrypt` undoes under the same IV. -/
theorem cbcRoundTrip : Obligations.CbcRoundTrip := by
  unfold Obligations.CbcRoundTrip
  intro pad s hm hkey hivlen halign hfit
  refine decrypt_encrypt hm halign hfit (cbcEncrypt_length _ _ _ _) (cbcencBody_of_legal hkey hivlen pad)
    fun t hsame hmsg => ?_
  obtain ⟨-, hkeylen, hivlen', hiv, hsched, hrounds⟩ := operands_of_onlyBuffer hsame
  have hkey' : LegalKeyLen t := by rwa [LegalKeyLen, hkeylen]
  rw [commandBody, cbcdecBody_of_legal hkey' (hivlen'.trans hivlen), hmsg, hsched, hrounds, hiv, blocksOf_joinBlocks,
    cbcDecrypt_cbcEncrypt, joinBlocks_blocksOf_applyPad halign]

end Sys2Proof.Machine
end
